-- ==== Sys2Proof/Word.lean ====
section
/-! DEFINITION. The word types of the machine (R6, R9, R20): 32-bit words, 8-bit bytes, register numbers. -/

namespace Sys2Proof

/-- A 32-bit word: a register, `PC`, an address, an instruction word (R6). -/
abbrev Word := BitVec 32

/-- A byte, `unsigned char` (R50). -/
abbrev Byte := BitVec 8

/-- The number of a general register, 0 to 31 (R20). -/
abbrev Reg := Fin 32

end Sys2Proof
end

