-- ==== Sys2Proof/Config.lean ====
section
/-! DEFINITION. The parameters the source leaves open (R7) and the free values of the model.
A machine carries one `Config` for its whole life; the spec's defaults are `Machine.defaultConfig`. -/

namespace Sys2Proof

/-- `REG0_WRITE` (R7, R21, D3): what a write of a non-zero value to register 0 does. -/
inductive Reg0Write where
  | discard
  | error
  deriving DecidableEq, Repr

/-- `DIV_OVERFLOW` (R7, R114, D7): what `DIV` of -2^31 by -1 does. -/
inductive DivOverflow where
  | fault
  | wrap
  | error
  deriving DecidableEq, Repr

/-- `MISALIGNED_WORD` (R7, R55, D12): what a word access at an address not divisible by 4 does. -/
inductive MisalignedWord where
  | error
  | bytewise
  deriving DecidableEq, Repr

/-- The parameters of R7 (`STDIN`, the ninth, is the state's unread input). -/
structure Config where
  /-- `MAX_STACK_HEIGHT`, the bound of invariant V8 (R36, D16). -/
  maxStackHeight : Nat
  /-- `REG0_WRITE`. -/
  reg0Write : Reg0Write
  /-- `ERROR_EXIT_CODE` (R201, D18). -/
  errorExitCode : Nat
  /-- `EOF_VALUE`, what `getc` answers at end of input (R184, D22). -/
  eofValue : Word
  /-- `DIV_OVERFLOW`. -/
  divOverflow : DivOverflow
  /-- `MISALIGNED_WORD`. -/
  misalignedWord : MisalignedWord
  /-- `STRICT_FIXED_FIELDS` (R89, D14). -/
  strictFixedFields : Bool
  /-- `TRACE_OBSERVED` (R240, D19). -/
  traceObserved : Bool
  deriving DecidableEq, Repr

/-- What R7 asks of every setting: the stack bound exceeds 4096, the error exit code is non-zero (R201)
and `EOF_VALUE` is negative as an `int` (D22). -/
abbrev Config.Legal (c : Config) : Prop :=
  4096 < c.maxStackHeight ∧ c.errorExitCode ≠ 0 ∧ c.eofValue.toInt < 0

/-- Free value: whether the trace shows the state after a `NOTR` executed while tracing is on
(R243: not determined by the source; log entry 29). -/
opaque Config.notrShowsState : Bool

/-- Free value: whether the trace shows the line of a `STRA` executed while tracing is off
(R243: not determined by the source; log entry 29). -/
opaque Config.straShowsLine : Bool

/-- Free value: whether the trace shows the state after a `STRA` executed while tracing is off
(R243: not determined by the source; log entry 29). -/
opaque Config.straShowsState : Bool

end Sys2Proof
end

