-- ==== Sys2Proof/Machine/Params.lean ====
section
/-! DEFINITION. The constants of R6, the spec's default parameters (R7), the names of the registers the hardware
treats specially (R23), the BOF header (R232) and the registers a load leaves (R235). -/

namespace Sys2Proof.Machine

/-- `MEMORY_SIZE_IN_BYTES` (R6, R32). -/
def memorySize : Nat := 65532

/-- `BYTES_PER_WORD` (R6). -/
def bytesPerWord : Nat := 4

/-- The spec's default parameters (R7; log entries 2 to 10). -/
def defaultConfig : Config where
  maxStackHeight := 65532
  reg0Write := .discard
  errorExitCode := 1
  eofValue := 0xFFFFFFFF#32
  divOverflow := .fault
  misalignedWord := .error
  strictFixedFields := true
  traceObserved := false

/-- `$v0`, the result register of the system calls (R180). -/
abbrev regV0 : Reg := 2
/-- `$a0`, the argument register of the system calls (R180). -/
abbrev regA0 : Reg := 4
/-- `$gp` (R23). -/
abbrev regGp : Reg := 28
/-- `$sp` (R23). -/
abbrev regSp : Reg := 29
/-- `$fp` (R23). -/
abbrev regFp : Reg := 30
/-- `$ra`, the link register of `JAL` (R172). -/
abbrev regRa : Reg := 31

/-- The five `word_type` fields of a BOF header (R232). -/
structure Header where
  textStart : Word
  textLength : Word
  dataStart : Word
  dataLength : Word
  stackBottom : Word
  deriving DecidableEq, Repr

/-- The header of the spec's own example (R235: `.data 1024`, `.stack 4096`, entry label at 0), with no text and no
data; `State.reset` is the state a load of it leaves (log entry 12). -/
def exampleHeader : Header where
  textStart := 0#32
  textLength := 0#32
  dataStart := 1024#32
  dataLength := 0#32
  stackBottom := 4096#32

/-- The general registers at program start (R235, R37): `$gp` the data start, `$sp` and `$fp` the stack bottom,
every other register 0. -/
def initialRegs (h : Header) : Vector Word 32 :=
  (((Vector.replicate 32 0#32).set 28 h.dataStart).set 29 h.stackBottom).set 30 h.stackBottom

end Sys2Proof.Machine
end

