-- ==== Sys2Proof/Machine/Memory.lean ====
section
/-! DEFINITION. Memory (R32, R50): a list of (address, byte) cells in one canonical form, read and written a byte at a
time; words are little-endian (R51). An address with no cell holds 0, the byte the machine starts with (R32, R233). -/

namespace Sys2Proof.Machine

/-- The memory array. Addresses strictly rise, and no cell holds 0, which is what an unlisted address reads as. -/
abbrev Memory := List Host.Cell

/-- The canonical form above a bound: addresses rise from `lo`, lie in memory, and no byte is 0. -/
def memWfFrom (lo : Nat) : Memory → Bool
  | [] => true
  | (a, b) :: m => decide (lo ≤ a) && decide (a < memorySize) && decide (b ≠ 0#8) && memWfFrom (a + 1) m

/-- The canonical form of memory. -/
def Memory.wf (m : Memory) : Bool := memWfFrom 0 m

/-- `m[a]`: the byte at address `a` (R50). -/
def readByte : Memory → Nat → Byte
  | [], _ => 0#8
  | (a, b) :: m, x => if x = a then b else readByte m x

/-- Memory with no cell at `x`. -/
def eraseCell (x : Nat) : Memory → Memory
  | [] => []
  | (a, b) :: m => if a = x then eraseCell x m else (a, b) :: eraseCell x m

/-- Memory with the cell `(x, v)` put before the first address that is not below `x`. -/
def insertCell (x : Nat) (v : Byte) : Memory → Memory
  | [] => [(x, v)]
  | (a, b) :: m => if a < x then (a, b) :: insertCell x v m else (x, v) :: (a, b) :: m

/-- `m[x] <- v` (R53). Writing the byte an unlisted address reads as removes the cell. -/
def writeByte (m : Memory) (x : Nat) (v : Byte) : Memory :=
  if v = 0#8 then eraseCell x m else insertCell x v (eraseCell x m)

/-- The word made of four bytes, the first the least significant (R51). -/
def wordOfBytes (b0 b1 b2 b3 : Byte) : Word := b3 ++ b2 ++ b1 ++ b0

/-- Byte `k` of a word, byte 0 the least significant (R51). -/
def byteOfWord (w : Word) (k : Nat) : Byte := w.extractLsb' (8 * k) 8

/-- `word(a)`: the little-endian word at byte address `a` (R51). -/
def readWord (m : Memory) (a : Nat) : Word :=
  wordOfBytes (readByte m a) (readByte m (a + 1)) (readByte m (a + 2)) (readByte m (a + 3))

/-- The four byte writes of `MemWrite(a, 4, v)` (R53). -/
def writeWord (m : Memory) (a : Nat) (v : Word) : Memory :=
  writeByte (writeByte (writeByte (writeByte m a (byteOfWord v 0)) (a + 1) (byteOfWord v 1)) (a + 2) (byteOfWord v 2))
    (a + 3) (byteOfWord v 3)

/-- Copies bytes to memory upward from `a` (R233). -/
def writeBytes (m : Memory) (a : Nat) : List Byte → Memory
  | [] => m
  | b :: bs => writeBytes (writeByte m a b) (a + 1) bs

/-- The words at `a`, `a + 4`, ... of which `n` are asked for and which lie in memory, each with its address. -/
def readWords (m : Memory) (a : Nat) : Nat → List (Nat × Word)
  | 0 => []
  | n + 1 => if a + 4 ≤ memorySize then (a, readWord m a) :: readWords m (a + 4) n else []

/-- The bytes before the first zero byte at or after `a`, and none when no zero byte lies within the next `n` bytes
(R182). -/
def readString (m : Memory) (a : Nat) : Nat → Option (List Byte)
  | 0 => none
  | n + 1 =>
    if readByte m a = 0#8 then some []
    else
      match readString m (a + 1) n with
      | none => none
      | some bs => some (readByte m a :: bs)

end Sys2Proof.Machine
end

