-- ==== Sys2Proof/Syntax.lean ====
section
/-! DEFINITION. The instructions of R88, one constructor per row of spec/opcode_table.json.
Operands stand in the order of their fields in the instruction word (R81, R95). -/

namespace Sys2Proof

/-- The 35 instructions of the SRM (R88). A shift amount is a count (R82); immediates and jump addresses are
bit patterns with no sign of their own (R82, C12). -/
inductive Instr where
  -- Register format (R111 to R123)
  | add (rs rt rd : Reg)
  | sub (rs rt rd : Reg)
  | mul (rs rt : Reg)
  | div (rs rt : Reg)
  | mfhi (rd : Reg)
  | mflo (rd : Reg)
  | and (rs rt rd : Reg)
  | bor (rs rt rd : Reg)
  | nor (rs rt rd : Reg)
  | xor (rs rt rd : Reg)
  | sll (rt rd : Reg) (shift : Nat)
  | srl (rt rd : Reg) (shift : Nat)
  | jr (rs : Reg)
  -- System calls (R181 to R186)
  | exit
  | pstr
  | pch
  | rch
  | stra
  | notr
  -- Immediate format (R141 to R156)
  | addi (rs rt : Reg) (immed : BitVec 16)
  | andi (rs rt : Reg) (immed : BitVec 16)
  | bori (rs rt : Reg) (immed : BitVec 16)
  | xori (rs rt : Reg) (immed : BitVec 16)
  | beq (rs rt : Reg) (immed : BitVec 16)
  | bgez (rs : Reg) (immed : BitVec 16)
  | bgtz (rs : Reg) (immed : BitVec 16)
  | blez (rs : Reg) (immed : BitVec 16)
  | bltz (rs : Reg) (immed : BitVec 16)
  | bne (rs rt : Reg) (immed : BitVec 16)
  | lbu (rs rt : Reg) (immed : BitVec 16)
  | lw (rs rt : Reg) (immed : BitVec 16)
  | sb (rs rt : Reg) (immed : BitVec 16)
  | sw (rs rt : Reg) (immed : BitVec 16)
  -- Jump format (R171, R172)
  | jmp (addr : BitVec 26)
  | jal (addr : BitVec 26)
  deriving DecidableEq, Repr

end Sys2Proof
end

