-- ==== Sys2Proof/Machine/Trace.lean ====
section
/-! DEFINITION. The tracing output (R243) as structured items: what a state dump shows and what an instruction's line
shows. The layout of the text is not modelled (R243: it cannot be reproduced byte for byte; log entry 28). -/

namespace Sys2Proof.Machine

/-- One entry of the memory that the trace and the listing show (R243). -/
inductive MemoryItem where
  /-- A word that is not zero, with its address. -/
  | word (addr : Nat) (w : Word)
  /-- A run of zero words from `addr`, "only indicated with "..."": the `addr: 0 ...` of Figures 4 and 5. That a run has one entry,
  at its first word, is the model's choice (log entry 28). -/
  | zeros (addr : Nat)
  deriving DecidableEq, Repr

/-- The address an entry shows. -/
def MemoryItem.addr : MemoryItem → Nat
  | .word a _ => a
  | .zeros a => a

/-- The entries for the `n` words from `a`, those of them that lie in memory (R243). `inRun` says that the word before `a` was a zero
already indicated. -/
def showWords (m : Memory) (inRun : Bool) (a : Nat) : Nat → List MemoryItem
  | 0 => []
  | n + 1 =>
    if a + 4 ≤ memorySize then
      if readWord m a = 0#32 then (if inRun then [] else [.zeros a]) ++ showWords m true (a + 4) n
      else .word a (readWord m a) :: showWords m false (a + 4) n
    else []

/-- What the trace shows of one state (R243). -/
structure Dump where
  pc : Word
  /-- `HI`, shown only when it is not zero. -/
  hi : Option Word
  /-- `LO`, shown only when it is not zero. -/
  lo : Option Word
  regs : Vector Word 32
  /-- The words from `$gp`, as many as `dataWords` says. -/
  data : List MemoryItem
  /-- The words between `$sp` and `$fp` inclusive. -/
  stack : List MemoryItem
  deriving DecidableEq, Repr

/-- One item of tracing output (R243). -/
inductive TraceItem where
  /-- The state of the machine. -/
  | state (d : Dump)
  /-- The line `==> addr:` with the address of the instruction and the instruction itself. -/
  | line (addr : Word) (i : Instr)
  deriving DecidableEq, Repr

/-- `HI` and `LO` are shown "if those are not zero" (R243). -/
def shownWord (w : Word) : Option Word := if w = 0#32 then none else some w

/-- How many words from the data start are shown: those of the data section, and one where it is empty, as Figures 4 and 5 show
`1024: 0 ...`. R243 asks for "at least" the section's words; the number is the model's choice (log entry 28). -/
def dataWords (h : Header) : Nat := max 1 ((h.dataLength.toNat + 3) / bytesPerWord)

/-- What the trace shows of a state with these contents (R243). -/
def dumpOf (h : Header) (pc hi lo : Word) (regs : Vector Word 32) (m : Memory) : Dump where
  pc := pc
  hi := shownWord hi
  lo := shownWord lo
  regs := regs
  data := showWords m false regs[28].toNat (dataWords h)
  stack := showWords m false regs[29].toNat ((regs[30].toNat - regs[29].toNat) / bytesPerWord + 1)

end Sys2Proof.Machine
end

