-- ==== Sys2Proof/Machine/State.lean ====
section
/-! DEFINITION. The state of the machine (10_state.md: R20 to R38), the kinds of error halt (R201), the two ways a step can
have no result, and the state after reset (R37). -/

namespace Sys2Proof.Machine

/-- The kinds of error halt (R201), labels of the spec and not numbers the hardware records. -/
inductive ErrorKind where
  /-- `DIV` with a zero divisor (R202). -/
  | divisionByZero
  /-- An invariant of R36 is false at an instruction boundary (R203). -/
  | invariantViolated
  /-- The fetched word is no instruction (R204). -/
  | undefinedInstruction
  /-- A data access touches an address of 65532 or above (R205). -/
  | addressOutOfRange
  /-- A word access at an address not divisible by 4 (R206). -/
  | misalignedAccess
  /-- The BOF cannot be read or its header breaks a requirement (R207). -/
  | loadError
  /-- `DIV` of -2^31 by -1 under `DIV_OVERFLOW = error` (D7, which names no label for it; log entry 7). -/
  | divisionOverflow
  deriving DecidableEq, Repr

/-- The run status (R35). `exited` and `error` are final. -/
inductive Status where
  | running
  | exited
  | error (kind : ErrorKind)
  deriving DecidableEq, Repr

/-- Everything the spec gives the machine (10_state.md). -/
structure State where
  /-- The 32 general registers (R20); register 0 is read and written only through `getReg` and `setReg`. -/
  regs : Vector Word 32
  /-- The program counter (R24). -/
  pc : Word
  /-- `HI` (R27). -/
  hi : Word
  /-- `LO` (R28). -/
  lo : Word
  /-- The 65532 bytes of memory (R32). -/
  mem : Memory
  /-- The tracing flag (R31). -/
  tracing : Bool
  /-- The run status (R35). -/
  status : Status
  /-- The unread remainder of standard input (R34). -/
  stdin : List Byte
  /-- The program's output on standard output, oldest byte first (R34, R240). -/
  stdout : List Byte
  /-- The tracing-output channel of standard output, newest item first (R240, R243). -/
  trace : List TraceItem
  /-- The error messages sent to standard error, oldest first (R34, R208). -/
  stderr : List ErrorKind
  /-- The header of the loaded program (R232), whose data length the trace uses (R243). -/
  header : Header
  /-- The machine's parameters (R7). -/
  cfg : Config
  deriving DecidableEq, Repr

/-- The ways a step has no result that the spec describes. -/
inductive Fault where
  /-- Raised by `step` from a state whose status is `exited` or `error`: "no step is defined from them" (R35, U27).
  Safe: the machine makes no further step. -/
  | halted
  /-- Raised by `DIV` of -2^31 by -1 under `DIV_OVERFLOW = fault`: "no defined result" (R114, R212, D7).
  Safe: nothing can be proved of a run that reaches it. -/
  | divOverflow
  deriving DecidableEq, Repr

/-- The ways an instruction has no meaning. -/
inductive Refusal where
  /-- Raised by `exec` for an instruction not modelled yet. Safe: nothing can be proved of such a run. -/
  | notModelled (mnemonic : String)
  deriving DecidableEq, Repr

/-- The machine at program start (R37), after a load of the spec's example header with no text and no data
(log entry 12). -/
def State.reset : State where
  regs := initialRegs exampleHeader
  pc := exampleHeader.textStart
  hi := 0#32
  lo := 0#32
  mem := []
  tracing := true
  status := .running
  stdin := []
  stdout := []
  trace := [.state (dumpOf exampleHeader exampleHeader.textStart 0#32 0#32 (initialRegs exampleHeader) [])]
  stderr := []
  header := exampleHeader
  cfg := defaultConfig

end Sys2Proof.Machine
end

