-- ==== Sys2Proof/Machine/Ops.lean ====
section
/-! DEFINITION. The named operations over the state: registers (R20, R21), memory accesses (R52 to R55), the error halt and the
normal halt (R14, R208), input and output (R15), the invariants (R36) and the trace printed around a step (R243).
Each operation takes the state last, so that meanings read in the order of the spec's pseudocode. -/

namespace Sys2Proof.Machine

/-! ### Halting (R14, R208) -/

/-- `raise Error(kind)` (R14, R208), the machine's one trap-like outcome: the status becomes `Error` and a message goes to
standard error; nothing is saved, no register or memory byte changes, and control goes nowhere.
There is no return from it (R209: "There is no return from an error halt and no return instruction"). -/
def State.raise (k : ErrorKind) (s : State) : State :=
  { s with status := .error k, stderr := s.stderr ++ [k] }

/-- `halt(0)` (R14, R181). -/
def State.halt (s : State) : State := { s with status := .exited }

/-- The process exit code (R35, R201): none while running, 0 after `EXIT`, `ERROR_EXIT_CODE` after an error. -/
def State.exitCode (s : State) : Option Nat :=
  match s.status with
  | .running => none
  | .exited => some 0
  | .error _ => some s.cfg.errorExitCode

/-! ### Registers -/

/-- `x[r]` (R12): register 0 always reads 0 (R21). -/
def State.getReg (s : State) (r : Reg) : Word := if r = 0 then 0#32 else s.regs[r]

/-- `x[r] <- v` (R12). Register 0 keeps 0; a non-zero write to it is dropped or is an error, by `REG0_WRITE` (R21). -/
def State.setReg (r : Reg) (v : Word) (s : State) : State :=
  if r = 0 then
    if v = 0#32 then s
    else
      match s.cfg.reg0Write with
      | .discard => s
      | .error => s.raise .invariantViolated
  else { s with regs := s.regs.set r.val v }

/-- `pc <- v` (R25). -/
def State.setPc (v : Word) (s : State) : State := { s with pc := v }

/-- The advance of step 2 of the machine cycle, `pc <- pc + 4` modulo 2^32 (R25, R26). -/
def State.advancePc (s : State) : State := s.setPc (s.pc + 4#32)

/-- `HI <- h; LO <- l` (R27, R28). -/
def State.setHiLo (h l : Word) (s : State) : State := { s with hi := h, lo := l }

/-- `tracing <- b` (R31). -/
def State.setTracing (b : Bool) (s : State) : State := { s with tracing := b }

/-- Memory replaced. -/
def State.setMem (m : Memory) (s : State) : State := { s with mem := m }

/-! ### Memory accesses (R52 to R55) -/

/-- The check of a 1-byte access (R52, R53, R54). -/
def byteAccessError (a : Word) : Option ErrorKind :=
  if a.toNat + 1 > memorySize then some .addressOutOfRange else none

/-- The checks of a 4-byte access: alignment first, unless `MISALIGNED_WORD = bytewise`, then range (R52 to R55, R211). -/
def wordAccessError (p : MisalignedWord) (a : Word) : Option ErrorKind :=
  if a.toNat % bytesPerWord ≠ 0 ∧ p = .error then some .misalignedAccess
  else if a.toNat + bytesPerWord > memorySize then some .addressOutOfRange
  else none

/-- `MemRead(a, 1)` (R52). -/
def State.memReadByte (a : Word) (s : State) : Except ErrorKind Byte :=
  match byteAccessError a with
  | some k => .error k
  | none => .ok (readByte s.mem a.toNat)

/-- `MemRead(a, 4)` (R52). -/
def State.memReadWord (a : Word) (s : State) : Except ErrorKind Word :=
  match wordAccessError s.cfg.misalignedWord a with
  | some k => .error k
  | none => .ok (readWord s.mem a.toNat)

/-- `MemWrite(a, 1, v)`, or the error halt in its place (R53, R205). -/
def State.memWriteByte (a : Word) (v : Byte) (s : State) : State :=
  match byteAccessError a with
  | some k => s.raise k
  | none => s.setMem (writeByte s.mem a.toNat v)

/-- `MemWrite(a, 4, v)`, or the error halt in its place (R53, R205, R206). -/
def State.memWriteWord (a : Word) (v : Word) (s : State) : State :=
  match wordAccessError s.cfg.misalignedWord a with
  | some k => s.raise k
  | none => s.setMem (writeWord s.mem a.toNat v)

/-! ### Input and output (R15) -/

/-- `Output` of each byte in order (R15). -/
def State.output (bs : List Byte) (s : State) : State := { s with stdout := s.stdout ++ bs }

/-- `Input()` (R15): the next byte of standard input zero-extended, or `EOF_VALUE` when it is exhausted. -/
def State.inputValue (s : State) : Word :=
  match s.stdin with
  | [] => s.cfg.eofValue
  | b :: _ => b.setWidth 32

/-- What `Input()` leaves unread: nothing is removed at end of input (R15, R184). -/
def State.consumeInput (s : State) : State := { s with stdin := s.stdin.tail }

/-- The bytes of the zero-terminated string at `a`, if its zero byte lies in memory (R182). -/
def State.stringAt (a : Word) (s : State) : Option (List Byte) :=
  readString s.mem a.toNat (memorySize - a.toNat)

/-! ### The invariants (R36) -/

/-- V1 to V11 of R36: `$gp`, `$sp`, `$fp` compare as signed values, `PC` as an unsigned one (D25). -/
abbrev State.Invariants (s : State) : Prop :=
  s.pc.toNat % bytesPerWord = 0 ∧
  (s.getReg regGp).toNat % bytesPerWord = 0 ∧
  (s.getReg regSp).toNat % bytesPerWord = 0 ∧
  (s.getReg regFp).toNat % bytesPerWord = 0 ∧
  0 ≤ (s.getReg regGp).toInt ∧
  (s.getReg regGp).toInt < (s.getReg regSp).toInt ∧
  (s.getReg regSp).toInt ≤ (s.getReg regFp).toInt ∧
  (s.getReg regFp).toInt < s.cfg.maxStackHeight ∧
  0 ≤ s.pc.toNat ∧
  s.pc.toNat < memorySize ∧
  s.getReg 0 = 0#32

/-- The invariant check at an instruction boundary (R203, R238): made on a state that did not itself halt. -/
def State.checkInvariants (s : State) : State :=
  if s.status = .running ∧ ¬ s.Invariants then s.raise .invariantViolated else s

/-! ### Tracing output (R243) -/

/-- What the trace shows of a state (R243); register 0 shows as it reads, 0 (R21). -/
def State.dump (s : State) : Dump := dumpOf s.header s.pc s.hi s.lo (Vector.ofFn s.getReg) s.mem

/-- Whether the trace shows an instruction's line, given the tracing flag before and after it: with tracing on, always;
for a `STRA` that turns it on, not determined (R243). -/
def showsLine (before after : Bool) : Bool :=
  if before then true else after && Config.straShowsLine

/-- Whether the trace shows the state after an instruction that did not halt, given the tracing flag before and after it:
with tracing on, always; for the instruction that switches it, not determined (R243). -/
def showsState (before after : Bool) : Bool :=
  if before then after || Config.notrShowsState else after && Config.straShowsState

/-- The trace items of one instruction, newest first: its line, then the state after it unless the machine halted
("followed, unless the instruction was `EXIT`, by the state after it", R243). `before` is the tracing flag before it. -/
def State.traceItems (addr : Word) (i : Instr) (before : Bool) (s : State) : List TraceItem :=
  (if s.status = .running ∧ showsState before s.tracing = true then [TraceItem.state s.dump] else []) ++
  (if showsLine before s.tracing = true then [TraceItem.line addr i] else [])

/-- What the cycle does after the instruction `i` at `addr` has executed: the invariant check (R238) and the tracing output
(R243). -/
def State.finishStep (addr : Word) (i : Instr) (before : Bool) (s : State) : State :=
  { s.checkInvariants with trace := s.checkInvariants.traceItems addr i before ++ s.trace }

/-! ### What a finished run hands the host (R239) -/

/-- "exactly: the exit code, the bytes on standard output, the bytes on standard error, and how much of `STDIN` was
consumed" (R239). The trace is part of it only under `TRACE_OBSERVED` (R240). -/
structure Report where
  exitCode : Nat
  stdout : List Byte
  trace : Option (List TraceItem)
  stderr : List ErrorKind
  unread : List Byte
  deriving DecidableEq, Repr

/-- The report of a run, none while it runs (R239). The trace is given oldest item first. -/
def State.report (s : State) : Option Report :=
  match s.exitCode with
  | none => none
  | some c =>
    some { exitCode := c, stdout := s.stdout, trace := if s.cfg.traceObserved then some s.trace.reverse else none,
           stderr := s.stderr, unread := s.stdin }

end Sys2Proof.Machine
end

