-- ==== Sys2Proof/Machine/Operands.lean ====
section
/-! DEFINITION. The operand forms: the three functions on a 16-bit immediate (R10, R84, R85), the jump target (R11, R170) and the
one addressing mode (R152). -/

namespace Sys2Proof.Machine

/-- `sgnExt(i)` (R10). -/
def sgnExt (i : BitVec 16) : Word := i.signExtend 32

/-- `zeroExt(i)` (R10). -/
def zeroExt (i : BitVec 16) : Word := i.setWidth 32

/-- `formOffset(o)`: 4 times the field read as a signed number (R10, R85, D9). -/
def formOffset (o : BitVec 16) : Word := sgnExt o <<< 2

/-- `formAddress(P, a)`: the high four bits of `P`, then `a`, then two zero bits (R11, R170). -/
def formAddress (p : Word) (a : BitVec 26) : Word := p.extractLsb' 28 4 ++ a ++ 0#2

/-- The effective address `x[rs] + formOffset(immed)` modulo 2^32 (R152). -/
def State.effectiveAddress (rs : Reg) (o : BitVec 16) (s : State) : Word := s.getReg rs + formOffset o

/-- The target of a taken branch, from the already-advanced `pc` (R145). -/
def State.branchTarget (o : BitVec 16) (s : State) : Word := s.pc + formOffset o

end Sys2Proof.Machine
end

