-- ==== Sys2Proof/Machine/Flags.lean ====
section
/-! DEFINITION. The machine has no status flags, condition codes or predicate registers (R29); what stands in their place are the
conditions the branches compute from register values (R145 to R151), here, with the branch itself. -/

namespace Sys2Proof.Machine

/-- `x[rs] = x[rt]`, on all 32 bits (R146, R151). -/
def condEq (a b : Word) : Bool := a == b

/-- `signed(x) >= 0` (R147). -/
def condGez (a : Word) : Bool := decide (0 ≤ a.toInt)

/-- `signed(x) > 0` (R148). -/
def condGtz (a : Word) : Bool := decide (0 < a.toInt)

/-- `signed(x) <= 0` (R149). -/
def condLez (a : Word) : Bool := decide (a.toInt ≤ 0)

/-- `signed(x) < 0` (R150). -/
def condLtz (a : Word) : Bool := decide (a.toInt < 0)

/-- The common rule of the branches (R145): `pc` takes the target when the condition holds and stays otherwise. -/
def State.branchIf (cond : Bool) (o : BitVec 16) (s : State) : State :=
  if cond then s.setPc (s.branchTarget o) else s

end Sys2Proof.Machine
end

