-- ==== Sys2Proof/Machine/Immediate.lean ====
section
/-! DEFINITION. The arithmetic and logical immediates (R141 to R144) and the branches (R145 to R151). The destination of an
immediate is `rt` (R140). -/

namespace Sys2Proof.Machine

open Host (Outcome)

/-- `ADDI` (R141): the immediate is sign-extended, the sum is modulo 2^32. -/
def execAddi (rs rt : Reg) (immed : BitVec 16) (s : State) : Outcome State Fault Refusal :=
  .next (s.setReg rt (s.getReg rs + sgnExt immed))

/-- `ANDI` (R142): the immediate is zero-extended. -/
def execAndi (rs rt : Reg) (immed : BitVec 16) (s : State) : Outcome State Fault Refusal :=
  .next (s.setReg rt (s.getReg rs &&& zeroExt immed))

/-- `BORI` (R143). -/
def execBori (rs rt : Reg) (immed : BitVec 16) (s : State) : Outcome State Fault Refusal :=
  .next (s.setReg rt (s.getReg rs ||| zeroExt immed))

/-- `XORI` (R144). -/
def execXori (rs rt : Reg) (immed : BitVec 16) (s : State) : Outcome State Fault Refusal :=
  .next (s.setReg rt (s.getReg rs ^^^ zeroExt immed))

/-- `BEQ` (R146). -/
def execBeq (rs rt : Reg) (immed : BitVec 16) (s : State) : Outcome State Fault Refusal :=
  .next (s.branchIf (condEq (s.getReg rs) (s.getReg rt)) immed)

/-- `BGEZ` (R147). -/
def execBgez (rs : Reg) (immed : BitVec 16) (s : State) : Outcome State Fault Refusal :=
  .next (s.branchIf (condGez (s.getReg rs)) immed)

/-- `BGTZ` (R148). -/
def execBgtz (rs : Reg) (immed : BitVec 16) (s : State) : Outcome State Fault Refusal :=
  .next (s.branchIf (condGtz (s.getReg rs)) immed)

/-- `BLEZ` (R149). -/
def execBlez (rs : Reg) (immed : BitVec 16) (s : State) : Outcome State Fault Refusal :=
  .next (s.branchIf (condLez (s.getReg rs)) immed)

/-- `BLTZ` (R150). -/
def execBltz (rs : Reg) (immed : BitVec 16) (s : State) : Outcome State Fault Refusal :=
  .next (s.branchIf (condLtz (s.getReg rs)) immed)

/-- `BNE` (R151). -/
def execBne (rs rt : Reg) (immed : BitVec 16) (s : State) : Outcome State Fault Refusal :=
  .next (s.branchIf (!condEq (s.getReg rs) (s.getReg rt)) immed)

end Sys2Proof.Machine
end

