-- ==== Sys2Proof/Machine/Jump.lean ====
section
/-! DEFINITION. The jump-format instructions (R170 to R172). There is no delay slot (R246). -/

namespace Sys2Proof.Machine

open Host (Outcome)

/-- `JMP` (R171). -/
def execJmp (addr : BitVec 26) (s : State) : Outcome State Fault Refusal :=
  .next (s.setPc (formAddress s.pc addr))

/-- `JAL` (R172): the link and the target both read the already-advanced `pc`. -/
def execJal (addr : BitVec 26) (s : State) : Outcome State Fault Refusal :=
  .next ((s.setReg regRa s.pc).setPc (formAddress s.pc addr))

end Sys2Proof.Machine
end

