-- ==== Sys2Proof/Machine/LoadStore.lean ====
section
/-! DEFINITION. The loads and stores (R152 to R156). An access that fails its checks is an error halt that changes no register and
no memory byte (R152, R205, R206). -/

namespace Sys2Proof.Machine

open Host (Outcome)

/-- `LBU` (R153): the byte is zero-extended. -/
def execLbu (rs rt : Reg) (immed : BitVec 16) (s : State) : Outcome State Fault Refusal :=
  match s.memReadByte (s.effectiveAddress rs immed) with
  | .ok b => .next (s.setReg rt (b.setWidth 32))
  | .error k => .next (s.raise k)

/-- `LW` (R154). -/
def execLw (rs rt : Reg) (immed : BitVec 16) (s : State) : Outcome State Fault Refusal :=
  match s.memReadWord (s.effectiveAddress rs immed) with
  | .ok w => .next (s.setReg rt w)
  | .error k => .next (s.raise k)

/-- `SB` (R155): the least significant byte of `x[rt]`. -/
def execSb (rs rt : Reg) (immed : BitVec 16) (s : State) : Outcome State Fault Refusal :=
  .next (s.memWriteByte (s.effectiveAddress rs immed) (byteOfWord (s.getReg rt) 0))

/-- `SW` (R156). -/
def execSw (rs rt : Reg) (immed : BitVec 16) (s : State) : Outcome State Fault Refusal :=
  .next (s.memWriteWord (s.effectiveAddress rs immed) (s.getReg rt))

end Sys2Proof.Machine
end

