-- ==== Sys2Proof/Machine/Register.lean ====
section
/-! DEFINITION. The register-format instructions (40_register.md: R111 to R123). `pc` already holds the instruction's address plus
4 when a meaning runs (R110); all operands are read before a result is written (R12, D26). -/

namespace Sys2Proof.Machine

open Host (Outcome)

/-- `ADD` (R111): the sum modulo 2^32. -/
def execAdd (rs rt rd : Reg) (s : State) : Outcome State Fault Refusal :=
  .next (s.setReg rd (s.getReg rs + s.getReg rt))

/-- `SUB` (R112): the difference modulo 2^32. -/
def execSub (rs rt rd : Reg) (s : State) : Outcome State Fault Refusal :=
  .next (s.setReg rd (s.getReg rs - s.getReg rt))

/-- The exact product of two words read as signed, as 64 bits (R113, D5). -/
def signedProduct (a b : Word) : BitVec 64 := BitVec.ofInt 64 (a.toInt * b.toInt)

/-- `MUL` (R113): `HI` and `LO` take the high and low halves of the signed product. -/
def execMul (rs rt : Reg) (s : State) : Outcome State Fault Refusal :=
  let p := signedProduct (s.getReg rs) (s.getReg rt)
  .next (s.setHiLo (p.extractLsb' 32 32) (p.extractLsb' 0 32))

/-- The quotient of two words read as signed, truncated toward zero (R114, D6). -/
def signedQuotient (a b : Word) : Word := BitVec.ofInt 32 (a.toInt.tdiv b.toInt)

/-- The remainder, with the sign of the dividend (R114, D6). -/
def signedRemainder (a b : Word) : Word := BitVec.ofInt 32 (a.toInt.tmod b.toInt)

/-- The one pair whose quotient, 2^31, is not representable (R114, D7). -/
def divOverflows (a b : Word) : Bool := a == 0x80000000#32 && b == 0xFFFFFFFF#32

/-- `DIV` (R114): `HI` takes the remainder, `LO` the quotient; a zero divisor is an error halt (R202); -2^31 by -1 goes by
`DIV_OVERFLOW` (D7). -/
def execDiv (rs rt : Reg) (s : State) : Outcome State Fault Refusal :=
  let a := s.getReg rs
  let b := s.getReg rt
  if b = 0#32 then .next (s.raise .divisionByZero)
  else if divOverflows a b then
    match s.cfg.divOverflow with
    | .fault => .fault .divOverflow
    | .wrap => .next (s.setHiLo 0#32 0x80000000#32)
    | .error => .next (s.raise .divisionOverflow)
  else .next (s.setHiLo (signedRemainder a b) (signedQuotient a b))

/-- `MFHI` (R115). -/
def execMfhi (rd : Reg) (s : State) : Outcome State Fault Refusal :=
  .next (s.setReg rd s.hi)

/-- `MFLO` (R116). -/
def execMflo (rd : Reg) (s : State) : Outcome State Fault Refusal :=
  .next (s.setReg rd s.lo)

/-- `AND` (R117). -/
def execAnd (rs rt rd : Reg) (s : State) : Outcome State Fault Refusal :=
  .next (s.setReg rd (s.getReg rs &&& s.getReg rt))

/-- `BOR` (R118). -/
def execBor (rs rt rd : Reg) (s : State) : Outcome State Fault Refusal :=
  .next (s.setReg rd (s.getReg rs ||| s.getReg rt))

/-- `NOR` (R119). -/
def execNor (rs rt rd : Reg) (s : State) : Outcome State Fault Refusal :=
  .next (s.setReg rd (~~~(s.getReg rs ||| s.getReg rt)))

/-- `XOR` (R120). -/
def execXor (rs rt rd : Reg) (s : State) : Outcome State Fault Refusal :=
  .next (s.setReg rd (s.getReg rs ^^^ s.getReg rt))

/-- `SLL` (R121): zeros enter at the bottom, bits shifted past bit 31 are lost. -/
def execSll (rt rd : Reg) (shift : Nat) (s : State) : Outcome State Fault Refusal :=
  .next (s.setReg rd (s.getReg rt <<< shift))

/-- `SRL` (R122): zeros enter at the top. -/
def execSrl (rt rd : Reg) (shift : Nat) (s : State) : Outcome State Fault Refusal :=
  .next (s.setReg rd (s.getReg rt >>> shift))

/-- `JR` (R123): the target is not checked here but by the invariant check after the instruction. -/
def execJr (rs : Reg) (s : State) : Outcome State Fault Refusal :=
  .next (s.setPc (s.getReg rs))

end Sys2Proof.Machine
end

