-- ==== Sys2Proof/Machine/Syscall.lean ====
section
/-! DEFINITION. The system calls (R180 to R186), performed by the VM within the one instruction (R124, R200). The values of the C
library calls are D22's. -/

namespace Sys2Proof.Machine

open Host (Outcome)

/-- `EXIT` (R181): the normal halt; `pc` stays at the address after the `EXIT`. -/
def execExit (s : State) : Outcome State Fault Refusal := .next s.halt

/-- `PSTR` (R182): prints the string at `$a0` and sets `$v0` to the number of bytes printed; a string with no zero byte in
memory is an error halt with nothing printed (D23). -/
def execPstr (s : State) : Outcome State Fault Refusal :=
  match s.stringAt (s.getReg regA0) with
  | some bs => .next ((s.output bs).setReg regV0 (BitVec.ofNat 32 bs.length))
  | none => .next (s.raise .addressOutOfRange)

/-- `PCH` (R183): prints the low byte of `$a0` and sets `$v0` to it. -/
def execPch (s : State) : Outcome State Fault Refusal :=
  let c := byteOfWord (s.getReg regA0) 0
  .next ((s.output [c]).setReg regV0 (c.setWidth 32))

/-- `RCH` (R184): sets `$v0` to the next byte of standard input, or to `EOF_VALUE` at its end. -/
def execRch (s : State) : Outcome State Fault Refusal :=
  .next (s.consumeInput.setReg regV0 s.inputValue)

/-- `STRA` (R185). -/
def execStra (s : State) : Outcome State Fault Refusal := .next (s.setTracing true)

/-- `NOTR` (R186). -/
def execNotr (s : State) : Outcome State Fault Refusal := .next (s.setTracing false)

end Sys2Proof.Machine
end

