-- ==== Sys2Proof/WellFormed.lean ====
section
/-! DEFINITION. Which instructions an instruction word can hold. Register numbers, immediates and jump addresses
are bounded by their types; the shift amount is the one count that is not. -/

namespace Sys2Proof

/-- A shift amount is one the 5-bit `shift` field can hold: "a shift by the width (32) cannot be encoded" (R125, R82). -/
def shiftEncodable (shift : Nat) : Bool := decide (shift < 32)

/-- The instruction can be encoded (R82, R125). -/
def Instr.wf : Instr → Bool
  | .sll _ _ h => shiftEncodable h
  | .srl _ _ h => shiftEncodable h
  | .add _ _ _ => true
  | .sub _ _ _ => true
  | .mul _ _ => true
  | .div _ _ => true
  | .mfhi _ => true
  | .mflo _ => true
  | .and _ _ _ => true
  | .bor _ _ _ => true
  | .nor _ _ _ => true
  | .xor _ _ _ => true
  | .jr _ => true
  | .exit => true
  | .pstr => true
  | .pch => true
  | .rch => true
  | .stra => true
  | .notr => true
  | .addi _ _ _ => true
  | .andi _ _ _ => true
  | .bori _ _ _ => true
  | .xori _ _ _ => true
  | .beq _ _ _ => true
  | .bgez _ _ => true
  | .bgtz _ _ => true
  | .blez _ _ => true
  | .bltz _ _ => true
  | .bne _ _ _ => true
  | .lbu _ _ _ => true
  | .lw _ _ _ => true
  | .sb _ _ _ => true
  | .sw _ _ _ => true
  | .jmp _ => true
  | .jal _ => true

end Sys2Proof
end

