-- ==== Sys2Proof/Decode.lean ====
section
/-! DEFINITION. Instruction words: their fields (R81), the decoding procedure (R83), the encoder, and the opcode table
of R88 as data. Decoding is total; a word that is no instruction is rejected by name (R90). -/

namespace Sys2Proof

/-! ### Fields (R81) -/

/-- `IR[31:26]`. -/
def opField (w : Word) : BitVec 6 := w.extractLsb' 26 6
/-- `IR[25:21]`. -/
def rsField (w : Word) : BitVec 5 := w.extractLsb' 21 5
/-- `IR[20:16]`. -/
def rtField (w : Word) : BitVec 5 := w.extractLsb' 16 5
/-- `IR[15:11]`. -/
def rdField (w : Word) : BitVec 5 := w.extractLsb' 11 5
/-- `IR[10:6]`. -/
def shiftField (w : Word) : BitVec 5 := w.extractLsb' 6 5
/-- `IR[5:0]`. -/
def funcField (w : Word) : BitVec 6 := w.extractLsb' 0 6
/-- `IR[25:6]`. -/
def codeField (w : Word) : BitVec 20 := w.extractLsb' 6 20
/-- `IR[15:0]`. -/
def immedField (w : Word) : BitVec 16 := w.extractLsb' 0 16
/-- `IR[25:0]`. -/
def addrField (w : Word) : BitVec 26 := w.extractLsb' 0 26

/-- The register a 5-bit specifier names (R20). -/
def regOfBits (b : BitVec 5) : Reg := ⟨b.toNat, b.isLt⟩

/-- The 5-bit specifier of a register (R20). -/
def bitsOfReg (r : Reg) : BitVec 5 := BitVec.ofNat 5 r.val

/-! ### Decoding (R83) -/

/-- Why a word is no instruction (R90). -/
inductive DecodeError where
  /-- Fewer than four bytes: every instruction is one 32-bit word (R80). -/
  | truncated
  /-- No row of tables I and J has this `op`. -/
  | undefinedOp (op : BitVec 6)
  /-- No row of table R has this `func`. -/
  | undefinedFunc (func : BitVec 6)
  /-- No system call has this `code` (R187). -/
  | undefinedCode (code : BitVec 20)
  /-- A fixed field holds another value, under `STRICT_FIXED_FIELDS` (R89). -/
  | fixedField
  deriving DecidableEq, Repr

/-- An instruction whose fixed fields must hold their values under `STRICT_FIXED_FIELDS` (R89). -/
def withFixed (strict held : Bool) (i : Instr) : Except DecodeError Instr :=
  if strict && !held then .error .fixedField else .ok i

/-- The system call of a `code` (R88 table S, R124). -/
def decodeSyscall (code : BitVec 20) : Except DecodeError Instr :=
  match code with
  | 10#20 => .ok .exit
  | 4#20 => .ok .pstr
  | 11#20 => .ok .pch
  | 12#20 => .ok .rch
  | 256#20 => .ok .stra
  | 257#20 => .ok .notr
  | _ => .error (.undefinedCode code)

/-- The instruction of a word with `op = 0` (R88 tables R and S). -/
def decodeRegister (strict : Bool) (w : Word) : Except DecodeError Instr :=
  let rs := regOfBits (rsField w)
  let rt := regOfBits (rtField w)
  let rd := regOfBits (rdField w)
  let shift := (shiftField w).toNat
  match funcField w with
  | 33#6 => .ok (.add rs rt rd)
  | 35#6 => .ok (.sub rs rt rd)
  | 25#6 => .ok (.mul rs rt)
  | 27#6 => .ok (.div rs rt)
  | 16#6 => .ok (.mfhi rd)
  | 18#6 => .ok (.mflo rd)
  | 36#6 => .ok (.and rs rt rd)
  | 37#6 => .ok (.bor rs rt rd)
  | 39#6 => .ok (.nor rs rt rd)
  | 38#6 => .ok (.xor rs rt rd)
  | 0#6 => .ok (.sll rt rd shift)
  | 3#6 => .ok (.srl rt rd shift)
  | 8#6 => withFixed strict (rtField w == 0#5 && rdField w == 0#5 && shiftField w == 0#5) (.jr rs)
  | 12#6 => decodeSyscall (codeField w)
  | f => .error (.undefinedFunc f)

/-- The instruction of a word, or why it is none (R83, R88). -/
def decodeWord (strict : Bool) (w : Word) : Except DecodeError Instr :=
  let rs := regOfBits (rsField w)
  let rt := regOfBits (rtField w)
  let immed := immedField w
  match opField w with
  | 0#6 => decodeRegister strict w
  | 9#6 => .ok (.addi rs rt immed)
  | 12#6 => .ok (.andi rs rt immed)
  | 13#6 => .ok (.bori rs rt immed)
  | 14#6 => .ok (.xori rs rt immed)
  | 4#6 => .ok (.beq rs rt immed)
  | 1#6 => withFixed strict (rtField w == 1#5) (.bgez rs immed)
  | 7#6 => withFixed strict (rtField w == 0#5) (.bgtz rs immed)
  | 6#6 => withFixed strict (rtField w == 0#5) (.blez rs immed)
  | 8#6 => withFixed strict (rtField w == 0#5) (.bltz rs immed)
  | 5#6 => .ok (.bne rs rt immed)
  | 36#6 => .ok (.lbu rs rt immed)
  | 35#6 => .ok (.lw rs rt immed)
  | 40#6 => .ok (.sb rs rt immed)
  | 43#6 => .ok (.sw rs rt immed)
  | 2#6 => .ok (.jmp (addrField w))
  | 3#6 => .ok (.jal (addrField w))
  | op => .error (.undefinedOp op)

/-- The instruction at the front of any bytes, little-endian (R80, R56), with the bytes after it. -/
def decodeBytes (strict : Bool) : List Byte → Except DecodeError (Instr × List Byte)
  | b0 :: b1 :: b2 :: b3 :: rest =>
    match decodeWord strict (Machine.wordOfBytes b0 b1 b2 b3) with
    | .ok i => .ok (i, rest)
    | .error e => .error e
  | _ => .error .truncated

/-! ### Encoding (R81, R88; ignored fields are 0, R87) -/

/-- A register-format word (R81). -/
def packR (rs rt rd shift : BitVec 5) (func : BitVec 6) : Word := 0#6 ++ rs ++ rt ++ rd ++ shift ++ func

/-- A system-call word (R81). -/
def packS (code : BitVec 20) : Word := 0#6 ++ code ++ 12#6

/-- An immediate-format word (R81). -/
def packI (op : BitVec 6) (rs rt : BitVec 5) (immed : BitVec 16) : Word := op ++ rs ++ rt ++ immed

/-- A jump-format word (R81). -/
def packJ (op : BitVec 6) (addr : BitVec 26) : Word := op ++ addr

/-- The word of a well-formed instruction (R88). -/
def encode : Instr → Word
  | .add rs rt rd => packR (bitsOfReg rs) (bitsOfReg rt) (bitsOfReg rd) 0#5 33#6
  | .sub rs rt rd => packR (bitsOfReg rs) (bitsOfReg rt) (bitsOfReg rd) 0#5 35#6
  | .mul rs rt => packR (bitsOfReg rs) (bitsOfReg rt) 0#5 0#5 25#6
  | .div rs rt => packR (bitsOfReg rs) (bitsOfReg rt) 0#5 0#5 27#6
  | .mfhi rd => packR 0#5 0#5 (bitsOfReg rd) 0#5 16#6
  | .mflo rd => packR 0#5 0#5 (bitsOfReg rd) 0#5 18#6
  | .and rs rt rd => packR (bitsOfReg rs) (bitsOfReg rt) (bitsOfReg rd) 0#5 36#6
  | .bor rs rt rd => packR (bitsOfReg rs) (bitsOfReg rt) (bitsOfReg rd) 0#5 37#6
  | .nor rs rt rd => packR (bitsOfReg rs) (bitsOfReg rt) (bitsOfReg rd) 0#5 39#6
  | .xor rs rt rd => packR (bitsOfReg rs) (bitsOfReg rt) (bitsOfReg rd) 0#5 38#6
  | .sll rt rd h => packR 0#5 (bitsOfReg rt) (bitsOfReg rd) (BitVec.ofNat 5 h) 0#6
  | .srl rt rd h => packR 0#5 (bitsOfReg rt) (bitsOfReg rd) (BitVec.ofNat 5 h) 3#6
  | .jr rs => packR (bitsOfReg rs) 0#5 0#5 0#5 8#6
  | .exit => packS 10#20
  | .pstr => packS 4#20
  | .pch => packS 11#20
  | .rch => packS 12#20
  | .stra => packS 256#20
  | .notr => packS 257#20
  | .addi rs rt i => packI 9#6 (bitsOfReg rs) (bitsOfReg rt) i
  | .andi rs rt i => packI 12#6 (bitsOfReg rs) (bitsOfReg rt) i
  | .bori rs rt i => packI 13#6 (bitsOfReg rs) (bitsOfReg rt) i
  | .xori rs rt i => packI 14#6 (bitsOfReg rs) (bitsOfReg rt) i
  | .beq rs rt o => packI 4#6 (bitsOfReg rs) (bitsOfReg rt) o
  | .bgez rs o => packI 1#6 (bitsOfReg rs) 1#5 o
  | .bgtz rs o => packI 7#6 (bitsOfReg rs) 0#5 o
  | .blez rs o => packI 6#6 (bitsOfReg rs) 0#5 o
  | .bltz rs o => packI 8#6 (bitsOfReg rs) 0#5 o
  | .bne rs rt o => packI 5#6 (bitsOfReg rs) (bitsOfReg rt) o
  | .lbu rs rt o => packI 36#6 (bitsOfReg rs) (bitsOfReg rt) o
  | .lw rs rt o => packI 35#6 (bitsOfReg rs) (bitsOfReg rt) o
  | .sb rs rt o => packI 40#6 (bitsOfReg rs) (bitsOfReg rt) o
  | .sw rs rt o => packI 43#6 (bitsOfReg rs) (bitsOfReg rt) o
  | .jmp a => packJ 2#6 a
  | .jal a => packJ 3#6 a

/-! ### The opcode table (R88) as data -/

/-- A row of R88: a word is the instruction when `word & mask = pattern` (the source's `match`). -/
structure OpcodeRow where
  mnemonic : String
  pattern : Word
  mask : Word
  deriving DecidableEq, Repr

/-- The word is the row's instruction (R88). -/
def OpcodeRow.holds (r : OpcodeRow) (w : Word) : Prop := w &&& r.mask = r.pattern

/-- The row an instruction belongs to (R88, strict patterns). -/
def Instr.row : Instr → OpcodeRow
  | .add _ _ _ => ⟨"ADD", 0x00000021#32, 0xFC00003F#32⟩
  | .sub _ _ _ => ⟨"SUB", 0x00000023#32, 0xFC00003F#32⟩
  | .mul _ _ => ⟨"MUL", 0x00000019#32, 0xFC00003F#32⟩
  | .div _ _ => ⟨"DIV", 0x0000001B#32, 0xFC00003F#32⟩
  | .mfhi _ => ⟨"MFHI", 0x00000010#32, 0xFC00003F#32⟩
  | .mflo _ => ⟨"MFLO", 0x00000012#32, 0xFC00003F#32⟩
  | .and _ _ _ => ⟨"AND", 0x00000024#32, 0xFC00003F#32⟩
  | .bor _ _ _ => ⟨"BOR", 0x00000025#32, 0xFC00003F#32⟩
  | .nor _ _ _ => ⟨"NOR", 0x00000027#32, 0xFC00003F#32⟩
  | .xor _ _ _ => ⟨"XOR", 0x00000026#32, 0xFC00003F#32⟩
  | .sll _ _ _ => ⟨"SLL", 0x00000000#32, 0xFC00003F#32⟩
  | .srl _ _ _ => ⟨"SRL", 0x00000003#32, 0xFC00003F#32⟩
  | .jr _ => ⟨"JR", 0x00000008#32, 0xFC1FFFFF#32⟩
  | .exit => ⟨"EXIT", 0x0000028C#32, 0xFFFFFFFF#32⟩
  | .pstr => ⟨"PSTR", 0x0000010C#32, 0xFFFFFFFF#32⟩
  | .pch => ⟨"PCH", 0x000002CC#32, 0xFFFFFFFF#32⟩
  | .rch => ⟨"RCH", 0x0000030C#32, 0xFFFFFFFF#32⟩
  | .stra => ⟨"STRA", 0x0000400C#32, 0xFFFFFFFF#32⟩
  | .notr => ⟨"NOTR", 0x0000404C#32, 0xFFFFFFFF#32⟩
  | .addi _ _ _ => ⟨"ADDI", 0x24000000#32, 0xFC000000#32⟩
  | .andi _ _ _ => ⟨"ANDI", 0x30000000#32, 0xFC000000#32⟩
  | .bori _ _ _ => ⟨"BORI", 0x34000000#32, 0xFC000000#32⟩
  | .xori _ _ _ => ⟨"XORI", 0x38000000#32, 0xFC000000#32⟩
  | .beq _ _ _ => ⟨"BEQ", 0x10000000#32, 0xFC000000#32⟩
  | .bgez _ _ => ⟨"BGEZ", 0x04010000#32, 0xFC1F0000#32⟩
  | .bgtz _ _ => ⟨"BGTZ", 0x1C000000#32, 0xFC1F0000#32⟩
  | .blez _ _ => ⟨"BLEZ", 0x18000000#32, 0xFC1F0000#32⟩
  | .bltz _ _ => ⟨"BLTZ", 0x20000000#32, 0xFC1F0000#32⟩
  | .bne _ _ _ => ⟨"BNE", 0x14000000#32, 0xFC000000#32⟩
  | .lbu _ _ _ => ⟨"LBU", 0x90000000#32, 0xFC000000#32⟩
  | .lw _ _ _ => ⟨"LW", 0x8C000000#32, 0xFC000000#32⟩
  | .sb _ _ _ => ⟨"SB", 0xA0000000#32, 0xFC000000#32⟩
  | .sw _ _ _ => ⟨"SW", 0xAC000000#32, 0xFC000000#32⟩
  | .jmp _ => ⟨"JMP", 0x08000000#32, 0xFC000000#32⟩
  | .jal _ => ⟨"JAL", 0x0C000000#32, 0xFC000000#32⟩

/-- The 35 rows of R88, in the table's order, each read off one instruction of its row. -/
def opcodeTable : List OpcodeRow :=
  ([.add 0 0 0, .sub 0 0 0, .mul 0 0, .div 0 0, .mfhi 0, .mflo 0, .and 0 0 0, .bor 0 0 0, .nor 0 0 0, .xor 0 0 0,
    .sll 0 0 0, .srl 0 0 0, .jr 0, .exit, .pstr, .pch, .rch, .stra, .notr] ++
   [.addi 0 0 0, .andi 0 0 0, .bori 0 0 0, .xori 0 0 0, .beq 0 0 0, .bgez 0 0, .bgtz 0 0, .blez 0 0, .bltz 0 0,
    .bne 0 0 0, .lbu 0 0 0, .lw 0 0 0, .sb 0 0 0, .sw 0 0 0, .jmp 0, .jal 0] : List Instr).map Instr.row

/-- The bits of the fields the source marks `-` for an instruction (R87). -/
def Instr.ignoredBits : Instr → Word
  | .add _ _ _ => 0x000007C0#32
  | .sub _ _ _ => 0x000007C0#32
  | .and _ _ _ => 0x000007C0#32
  | .bor _ _ _ => 0x000007C0#32
  | .nor _ _ _ => 0x000007C0#32
  | .xor _ _ _ => 0x000007C0#32
  | .mul _ _ => 0x0000FFC0#32
  | .div _ _ => 0x0000FFC0#32
  | .mfhi _ => 0x03FF07C0#32
  | .mflo _ => 0x03FF07C0#32
  | .sll _ _ _ => 0x03E00000#32
  | .srl _ _ _ => 0x03E00000#32
  | .jr _ => 0#32
  | .exit => 0#32
  | .pstr => 0#32
  | .pch => 0#32
  | .rch => 0#32
  | .stra => 0#32
  | .notr => 0#32
  | .addi _ _ _ => 0#32
  | .andi _ _ _ => 0#32
  | .bori _ _ _ => 0#32
  | .xori _ _ _ => 0#32
  | .beq _ _ _ => 0#32
  | .bgez _ _ => 0#32
  | .bgtz _ _ => 0#32
  | .blez _ _ => 0#32
  | .bltz _ _ => 0#32
  | .bne _ _ _ => 0#32
  | .lbu _ _ _ => 0#32
  | .lw _ _ _ => 0#32
  | .sb _ _ _ => 0#32
  | .sw _ _ _ => 0#32
  | .jmp _ => 0#32
  | .jal _ => 0#32

/-- The bits of the fields the tables show as a fixed number, for an instruction (R89). -/
def Instr.fixedBits : Instr → Word
  | .add _ _ _ => 0#32
  | .sub _ _ _ => 0#32
  | .mul _ _ => 0#32
  | .div _ _ => 0#32
  | .mfhi _ => 0#32
  | .mflo _ => 0#32
  | .and _ _ _ => 0#32
  | .bor _ _ _ => 0#32
  | .nor _ _ _ => 0#32
  | .xor _ _ _ => 0#32
  | .sll _ _ _ => 0#32
  | .srl _ _ _ => 0#32
  | .jr _ => 0x001FFFC0#32
  | .exit => 0#32
  | .pstr => 0#32
  | .pch => 0#32
  | .rch => 0#32
  | .stra => 0#32
  | .notr => 0#32
  | .addi _ _ _ => 0#32
  | .andi _ _ _ => 0#32
  | .bori _ _ _ => 0#32
  | .xori _ _ _ => 0#32
  | .beq _ _ _ => 0#32
  | .bgez _ _ => 0x001F0000#32
  | .bgtz _ _ => 0x001F0000#32
  | .blez _ _ => 0x001F0000#32
  | .bltz _ _ => 0x001F0000#32
  | .bne _ _ _ => 0#32
  | .lbu _ _ _ => 0#32
  | .lw _ _ _ => 0#32
  | .sb _ _ _ => 0#32
  | .sw _ _ _ => 0#32
  | .jmp _ => 0#32
  | .jal _ => 0#32

/-! ### The host's view of a table word -/

/-- The bytes of an instruction whose bits below `nbits` are those of `w` and whose other bits are 0, least
significant byte first (R56). -/
def tableWordBytes (nbits w : Nat) : List Byte :=
  let v : Word := BitVec.ofNat 32 (w % 2 ^ nbits)
  [Machine.byteOfWord v 0, Machine.byteOfWord v 1, Machine.byteOfWord v 2, Machine.byteOfWord v 3]

/-- The instruction the decoder reads from a table word, under the spec's default parameters. -/
def decodeTableWord (nbits w : Nat) : Option Instr :=
  match decodeBytes Machine.defaultConfig.strictFixedFields (tableWordBytes nbits w) with
  | .ok (i, _) => some i
  | .error _ => none

end Sys2Proof
end

