-- ==== Sys2Proof/Machine/Fetch.lean ====
section
/-! DEFINITION. Fetching and decoding the instruction at `PC` (R56, R83). -/

namespace Sys2Proof.Machine

/-- `IR <- MemRead(pc, 4)` (R56); at an instruction boundary the invariants make the access valid. -/
def State.fetchWord (s : State) : Word := readWord s.mem s.pc.toNat

/-- The instruction at `PC`, if the word there is one (R83, R238). -/
def State.fetch (s : State) : Except DecodeError Instr := decodeWord s.cfg.strictFixedFields s.fetchWord

/-- The bytes of a program word placed at address `a` (R233 copies a text section's bytes to memory). -/
def placeWord (m : Memory) (a : Nat) (nbits w : Nat) : Memory := writeBytes m a (tableWordBytes nbits w)

end Sys2Proof.Machine
end

