-- ==== Sys2Proof/Machine/Cycle.lean ====
section
/-! DEFINITION. The machine cycle (R238): fetch, advance `PC`, execute, check the invariants. -/

namespace Sys2Proof.Machine

open Host (Outcome)

/-- What the cycle does once the instruction at `PC` is known: `PC` is advanced, the instruction executes (R25), and then the
invariants are checked and the tracing output is printed (R238, R243). -/
def State.executeAt (i : Instr) (s : State) : Outcome State Fault Refusal :=
  match exec i s.advancePc with
  | .next t => .next (t.finishStep s.pc i s.tracing)
  | .fault f => .fault f
  | .refused r => .refused r

/-- One turn of the machine cycle (R238). From a state that has halted there is none (R35). A state that breaks the invariants
is halted before the fetch, which is the check `run` makes after the load (R238, R56; log entry 14). An undefined word is an
error halt after `pc` is advanced (R204). -/
def State.cycle (s : State) : Outcome State Fault Refusal :=
  if s.status = .running then
    if s.Invariants then
      match s.fetch with
      | .error _ => .next (s.advancePc.raise .undefinedInstruction)
      | .ok i => s.executeAt i
    else .next (s.raise .invariantViolated)
  else .fault .halted

end Sys2Proof.Machine
end

