-- ==== Sys2Proof/Machine/Step.lean ====
section
/-! DEFINITION. The step of the machine and the placing of a word where it fetches. -/

namespace Sys2Proof.Machine

/-- One step of the machine: one turn of the machine cycle (R238). -/
def step (s : State) : Host.Outcome State Fault Refusal := s.cycle

/-- The state with one instruction word placed at `PC`, where `step` fetches (R56). -/
def State.withFetchWord (s : State) (nbits w : Nat) : State :=
  s.setMem (placeWord s.mem s.pc.toNat nbits w)

end Sys2Proof.Machine
end

