-- ==== Sys2Proof/Machine/Assembly.lean ====
section
/-! DEFINITION. The assembly form of an instruction as the trace and the `-p` listing show it (R92, R93, R95), and the register
names of R22. The order of operands beyond the one example of the source is the spec's own (D24; log entry 33). -/

namespace Sys2Proof.Machine

/-- One operand of an assembly line. -/
inductive AsmOperand where
  | reg (name : String)
  | num (n : Int)
  deriving DecidableEq, Repr

/-- An assembly line: the mnemonic and its operands (R95). -/
structure AsmLine where
  mnemonic : String
  operands : List AsmOperand
  deriving DecidableEq, Repr

/-- The names of registers 0 to 31 (R22). -/
def regNames : List String :=
  ["$0", "$at", "$v0", "$v1", "$a0", "$a1", "$a2", "$a3", "$t0", "$t1", "$t2", "$t3", "$t4", "$t5", "$t6", "$t7"] ++
  ["$s0", "$s1", "$s2", "$s3", "$s4", "$s5", "$s6", "$s7", "$t8", "$t9", "$k0", "$k1", "$gp", "$sp", "$fp", "$ra"]

/-- A register operand, by name (R95). -/
def asmReg (r : Reg) : AsmOperand := .reg (regNames.getD r.val "$0")

/-- An immediate shown as a signed number (R95: `ADDI`, branches, loads, stores). -/
def asmSigned (i : BitVec 16) : AsmOperand := .num i.toInt

/-- An immediate shown as an unsigned number (R95: `ANDI`, `BORI`, `XORI`). -/
def asmUnsigned (i : BitVec 16) : AsmOperand := .num i.toNat

/-- The assembly form (R95). -/
def asmOf : Instr → AsmLine
  | .add rs rt rd => ⟨"ADD", [asmReg rs, asmReg rt, asmReg rd]⟩
  | .sub rs rt rd => ⟨"SUB", [asmReg rs, asmReg rt, asmReg rd]⟩
  | .mul rs rt => ⟨"MUL", [asmReg rs, asmReg rt]⟩
  | .div rs rt => ⟨"DIV", [asmReg rs, asmReg rt]⟩
  | .mfhi rd => ⟨"MFHI", [asmReg rd]⟩
  | .mflo rd => ⟨"MFLO", [asmReg rd]⟩
  | .and rs rt rd => ⟨"AND", [asmReg rs, asmReg rt, asmReg rd]⟩
  | .bor rs rt rd => ⟨"BOR", [asmReg rs, asmReg rt, asmReg rd]⟩
  | .nor rs rt rd => ⟨"NOR", [asmReg rs, asmReg rt, asmReg rd]⟩
  | .xor rs rt rd => ⟨"XOR", [asmReg rs, asmReg rt, asmReg rd]⟩
  | .sll rt rd h => ⟨"SLL", [asmReg rt, asmReg rd, .num h]⟩
  | .srl rt rd h => ⟨"SRL", [asmReg rt, asmReg rd, .num h]⟩
  | .jr rs => ⟨"JR", [asmReg rs]⟩
  | .exit => ⟨"EXIT", []⟩
  | .pstr => ⟨"PSTR", []⟩
  | .pch => ⟨"PCH", []⟩
  | .rch => ⟨"RCH", []⟩
  | .stra => ⟨"STRA", []⟩
  | .notr => ⟨"NOTR", []⟩
  | .addi rs rt i => ⟨"ADDI", [asmReg rs, asmReg rt, asmSigned i]⟩
  | .andi rs rt i => ⟨"ANDI", [asmReg rs, asmReg rt, asmUnsigned i]⟩
  | .bori rs rt i => ⟨"BORI", [asmReg rs, asmReg rt, asmUnsigned i]⟩
  | .xori rs rt i => ⟨"XORI", [asmReg rs, asmReg rt, asmUnsigned i]⟩
  | .beq rs rt o => ⟨"BEQ", [asmReg rs, asmReg rt, asmSigned o]⟩
  | .bgez rs o => ⟨"BGEZ", [asmReg rs, asmSigned o]⟩
  | .bgtz rs o => ⟨"BGTZ", [asmReg rs, asmSigned o]⟩
  | .blez rs o => ⟨"BLEZ", [asmReg rs, asmSigned o]⟩
  | .bltz rs o => ⟨"BLTZ", [asmReg rs, asmSigned o]⟩
  | .bne rs rt o => ⟨"BNE", [asmReg rs, asmReg rt, asmSigned o]⟩
  | .lbu rs rt o => ⟨"LBU", [asmReg rs, asmReg rt, asmSigned o]⟩
  | .lw rs rt o => ⟨"LW", [asmReg rs, asmReg rt, asmSigned o]⟩
  | .sb rs rt o => ⟨"SB", [asmReg rs, asmReg rt, asmSigned o]⟩
  | .sw rs rt o => ⟨"SW", [asmReg rs, asmReg rt, asmSigned o]⟩
  | .jmp a => ⟨"JMP", [.num a.toNat]⟩
  | .jal a => ⟨"JAL", [.num a.toNat]⟩

end Sys2Proof.Machine
end

