-- ==== Sys2Proof/Machine/Loader.lean ====
section
/-! DEFINITION. The binary object file, the loader and the initial state (R231 to R235), the run's command line (R230) and the `-p`
listing (R244). -/

namespace Sys2Proof.Machine

/-- The bytes `B`, `O`, `F`, NUL (R232). -/
def bofMagic : List Byte := [0x42#8, 0x4F#8, 0x46#8, 0x00#8]

/-- The size of the BOF header in bytes (R231). -/
def headerSize : Nat := 24

/-- The little-endian word at offset `k` of a file (R231, D2). -/
def fileWord (file : List Byte) (k : Nat) : Word :=
  wordOfBytes (file.getD k 0#8) (file.getD (k + 1) 0#8) (file.getD (k + 2) 0#8) (file.getD (k + 3) 0#8)

/-- The header's five numbers (R232). -/
def fileHeader (file : List Byte) : Header where
  textStart := fileWord file 4
  textLength := fileWord file 8
  dataStart := fileWord file 12
  dataLength := fileWord file 16
  stackBottom := fileWord file 20

/-- The header fields meet the loader's requirements (R234). They are `word_type`, so they compare as signed numbers. -/
abbrev Header.Acceptable (h : Header) : Prop :=
  h.dataStart.toNat % bytesPerWord = 0 ∧
  h.stackBottom.toNat % bytesPerWord = 0 ∧
  h.dataStart.toInt < h.stackBottom.toInt ∧
  h.textStart.toNat % bytesPerWord = 0 ∧
  h.textStart.toInt < h.dataStart.toInt ∧
  h.textLength.toNat % bytesPerWord = 0 ∧
  0 ≤ h.textLength.toInt ∧
  0 ≤ h.dataLength.toInt ∧
  h.textLength.toInt ≤ h.dataStart.toInt ∧
  h.dataStart.toInt + h.dataLength.toInt ≤ memorySize

/-- The file is one the loader accepts (R234). -/
abbrev BofAcceptable (file : List Byte) : Prop :=
  file.take 4 = bofMagic ∧
  headerSize ≤ file.length ∧
  (fileHeader file).Acceptable ∧
  headerSize + (fileHeader file).textLength.toNat + (fileHeader file).dataLength.toNat ≤ file.length

/-- The text section of a file (R231). -/
def textSection (file : List Byte) : List Byte :=
  (file.drop headerSize).take (fileHeader file).textLength.toNat

/-- The data section of a file (R231). -/
def dataSection (file : List Byte) : List Byte :=
  (file.drop (headerSize + (fileHeader file).textLength.toNat)).take (fileHeader file).dataLength.toNat

/-- Memory after a load (R233): zero, then the text at address 0, then the data at the data start address. -/
def loadedMemory (file : List Byte) : Memory :=
  writeBytes (writeBytes [] 0 (textSection file)) (fileHeader file).dataStart.toNat (dataSection file)

/-- The state when a program starts executing (R235, R37), before any check and any tracing output. -/
def launchState (cfg : Config) (h : Header) (mem : Memory) (stdin : List Byte) : State where
  regs := initialRegs h
  pc := h.textStart
  hi := 0#32
  lo := 0#32
  mem := mem
  tracing := true
  status := .running
  stdin := stdin
  stdout := []
  trace := []
  stderr := []
  header := h
  cfg := cfg

/-- The tracing output before the first instruction: "The tracing output shows the initial state of the VM" (R243). -/
def State.showInitial (s : State) : State :=
  if s.status = .running ∧ s.tracing = true then { s with trace := TraceItem.state s.dump :: s.trace } else s

/-- A header with nothing in it, kept by a state whose load failed. -/
def noHeader : Header := ⟨0#32, 0#32, 0#32, 0#32, 0#32⟩

/-- The state after a failed load (R207): "No instruction executes and nothing is printed on standard output". -/
def loadFailure (cfg : Config) (stdin : List Byte) : State :=
  (launchState cfg noHeader [] stdin).raise .loadError

/-- `./vm file` up to the first instruction (R230, R233 to R235, R238): `none` is a file that cannot be read. The invariants are
checked on the loaded state like on any other (R234). -/
def load (cfg : Config) (stdin : List Byte) (file : Option (List Byte)) : State :=
  match file with
  | none => loadFailure cfg stdin
  | some f =>
    if BofAcceptable f then
      (launchState cfg (fileHeader f) (loadedMemory f) stdin).checkInvariants.showInitial
    else loadFailure cfg stdin

/-- One line of the `-p` listing's instruction part (R244): a byte address and the assembly form; a word that is no instruction
is listed as the word it is. -/
inductive ListingLine where
  | instr (addr : Nat) (line : AsmLine)
  | word (addr : Nat) (w : Word)
  deriving DecidableEq, Repr

/-- The `-p` listing (R244): the heading line, the text section's instructions, then the data section in the trace's memory
format. -/
structure Listing where
  heading : String
  text : List ListingLine
  data : List MemoryItem
  deriving DecidableEq, Repr

/-- The listing line of a word at an address. -/
def listingLine (strict : Bool) (p : Nat × Word) : ListingLine :=
  match decodeWord strict p.2 with
  | .ok i => .instr p.1 (asmOf i)
  | .error _ => .word p.1 p.2

/-- `./vm -p file` (R230, R244): what was loaded, in assembly form; the program does not run. `none` is a load that failed.
DESIGN CHOICE: R244 does not say whether this mode makes the invariant check of R238's run after the load. The model makes it, so a file
that passes the loader's checks but whose initial state breaks an invariant (a stack bottom at or above `MAX_STACK_HEIGHT`) has no listing
(log entry 38). -/
def listing (cfg : Config) (file : Option (List Byte)) : Option Listing :=
  let s := load cfg [] file
  if s.status = .running then
    some { heading := "Addr Instruction",
           text := (readWords s.mem 0 (s.header.textLength.toNat / bytesPerWord)).map (listingLine cfg.strictFixedFields),
           data := showWords s.mem false s.header.dataStart.toNat (dataWords s.header) }
  else none

end Sys2Proof.Machine
end

