-- ==== Sys2Proof/Safety.lean ====
section
/-! DEFINITION. What claims call a control transfer, a sound state and a reachable one. -/

namespace Sys2Proof

/-- The instructions that write `pc` again after its advance (R25): `JR`, the six branches, `JMP`, `JAL`. -/
def Instr.isTransfer : Instr → Bool
  | .jr _ | .beq _ _ _ | .bgez _ _ | .bgtz _ _ | .blez _ _ | .bltz _ _ | .bne _ _ _ | .jmp _ | .jal _ => true
  | .add _ _ _ | .sub _ _ _ | .mul _ _ | .div _ _ | .mfhi _ | .mflo _ | .and _ _ _ | .bor _ _ _ | .nor _ _ _ => false
  | .xor _ _ _ | .sll _ _ _ | .srl _ _ _ | .exit | .pstr | .pch | .rch | .stra | .notr => false
  | .addi _ _ _ | .andi _ _ _ | .bori _ _ _ | .xori _ _ _ | .lbu _ _ _ | .lw _ _ _ | .sb _ _ _ | .sw _ _ _ => false

end Sys2Proof

namespace Sys2Proof.Machine

/-- What every state of a machine with legal parameters keeps: memory in its canonical form, register 0 stored as 0 (R21),
legal parameters (R7), and, while it runs, the invariants of R36. -/
def State.Sound (s : State) : Prop :=
  s.mem.wf = true ∧ s.regs[0] = 0#32 ∧ s.cfg.Legal ∧ (s.status = .running → s.Invariants)

/-- One state steps to another. -/
def Steps (s t : State) : Prop := step s = .next t

/-- A state some number of steps leads to. -/
inductive Reaches : State → State → Prop where
  | refl (s : State) : Reaches s s
  | tail (s t u : State) : Reaches s t → Steps t u → Reaches s u

/-- A state whose run never comes to a step without a result: every state it reaches has halted or steps on. -/
def State.NeverStuck (s : State) : Prop :=
  ∀ t, Reaches s t → t.status ≠ .running ∨ ∃ u, Steps t u

end Sys2Proof.Machine
end

