-- ==== Sys2Proof/Certificates/Slice0/Obligations.lean ====
section
/-! DEFINITION. The statements for the provers, from the numbered rules of spec/. `s` is always the state in which a meaning runs, whose
`pc` is already the instruction's address plus 4 (R24, R110), unless a statement is about `step`. -/

namespace Sys2Proof.Claims

open Sys2Proof.Machine

/-! ### What a statement says is unchanged -/

/-- Every general register reads as before. -/
def SameRegs (s t : State) : Prop := ∀ r, t.getReg r = s.getReg r

/-- Every byte of memory reads as before. -/
def SameMem (s t : State) : Prop := ∀ a, readByte t.mem a = readByte s.mem a

/-- `HI` and `LO` are as before. -/
def SameHiLo (s t : State) : Prop := t.hi = s.hi ∧ t.lo = s.lo

/-- The run goes on as it was: the status and standard error are as before. -/
def SameStatus (s t : State) : Prop := t.status = s.status ∧ t.stderr = s.stderr

/-- The program's input and output are as before. -/
def SameIo (s t : State) : Prop := t.stdin = s.stdin ∧ t.stdout = s.stdout

/-- The VM's own state is as before: the tracing flag, the trace, the loaded header and the parameters. -/
def SameVm (s t : State) : Prop :=
  t.tracing = s.tracing ∧ t.trace = s.trace ∧ t.header = s.header ∧ t.cfg = s.cfg

/-- Everything but memory is as before. -/
def AllButMem (s t : State) : Prop := t.pc = s.pc ∧ SameRegs s t ∧ SameHiLo s t ∧ SameStatus s t ∧ SameIo s t ∧ SameVm s t

/-- `t` is `s` with register `rd` holding `v`, and nothing else changed; a write of register 0 changes nothing (R21). -/
def WritesOnly (s t : State) (rd : Reg) (v : Word) : Prop :=
  (rd ≠ 0 → t.getReg rd = v) ∧ (∀ r, (r ≠ rd ∨ r = 0) → t.getReg r = s.getReg r) ∧
  t.pc = s.pc ∧ SameHiLo s t ∧ SameMem s t ∧ SameStatus s t ∧ SameIo s t ∧ SameVm s t

/-- `t` is `s` with `pc` holding `v`, and nothing else changed. -/
def JumpsOnly (s t : State) (v : Word) : Prop :=
  t.pc = v ∧ SameRegs s t ∧ SameHiLo s t ∧ SameMem s t ∧ SameStatus s t ∧ SameIo s t ∧ SameVm s t

/-- `t` is `s` with `HI` and `LO` written, and nothing else changed. -/
def SetsHiLoOnly (s t : State) (h l : Word) : Prop :=
  t.hi = h ∧ t.lo = l ∧ t.pc = s.pc ∧ SameRegs s t ∧ SameMem s t ∧ SameStatus s t ∧ SameIo s t ∧ SameVm s t

/-- `t` is `s` after the error halt of a kind (R208): status and standard error say so, and nothing else changed. -/
def ErrorHaltOf (s t : State) (k : ErrorKind) : Prop :=
  t.status = .error k ∧ t.stderr = s.stderr ++ [k] ∧
  t.pc = s.pc ∧ SameRegs s t ∧ SameHiLo s t ∧ SameMem s t ∧ SameIo s t ∧ SameVm s t

/-- The write of `v` to register `rd` is not the error that `REG0_WRITE = error` makes of a non-zero write to register 0 (R21). -/
def Writable (s : State) (rd : Reg) (v : Word) : Prop := rd ≠ 0 ∨ v = 0#32 ∨ s.cfg.reg0Write = .discard

/-- `s` is a running state that meets the invariants and whose word at `pc` is the instruction `i` (R238's precondition). -/
def AtInstr (s : State) (i : Instr) : Prop := s.status = .running ∧ s.Invariants ∧ s.fetch = .ok i

/-- The four bytes of memory from `a`, as one little-endian number (R51). -/
def littleEndian (m : Memory) (a : Nat) : Nat :=
  (readByte m a).toNat + 2 ^ 8 * (readByte m (a + 1)).toNat + 2 ^ 16 * (readByte m (a + 2)).toNat +
    2 ^ 24 * (readByte m (a + 3)).toNat

/-- The word at `a`, as one number, is not zero. -/
def NonzeroWord (m : Memory) (a : Nat) : Prop := littleEndian m a ≠ 0

/-- `items` shows the `n` words from `a` that lie in memory, by rising address: a word that is not zero with its value, and each run of
zero words by one entry at its first word (R243). -/
def ShowsMemory (items : List MemoryItem) (m : Memory) (a n : Nat) : Prop :=
  (∀ x w, MemoryItem.word x w ∈ items ↔
    ∃ k, k < n ∧ x = a + 4 * k ∧ x + 4 ≤ 65532 ∧ NonzeroWord m x ∧ w.toNat = littleEndian m x) ∧
  (∀ x, MemoryItem.zeros x ∈ items ↔
    ∃ k, k < n ∧ x = a + 4 * k ∧ x + 4 ≤ 65532 ∧ ¬ NonzeroWord m x ∧ (k = 0 ∨ NonzeroWord m (a + 4 * (k - 1)))) ∧
  (items.map MemoryItem.addr).Pairwise (· < ·)

/-- What a dump shows of a state (R243): `pc`, `HI` and `LO` exactly when they are not zero, the 32 registers, the memory from `$gp` for the
words of the data section (one word if it has none: log entry 28), and the memory from `$sp` to `$fp` inclusive. -/
def ShowsState (d : Dump) (s : State) : Prop :=
  d.pc = s.pc ∧ (∀ r : Reg, d.regs[r] = s.getReg r) ∧
  (∀ v, d.hi = some v ↔ v = s.hi ∧ s.hi ≠ 0#32) ∧ (∀ v, d.lo = some v ↔ v = s.lo ∧ s.lo ≠ 0#32) ∧
  ShowsMemory d.data s.mem (s.getReg 28).toNat (max 1 ((s.header.dataLength.toNat + 3) / 4)) ∧
  ShowsMemory d.stack s.mem (s.getReg 29).toNat (((s.getReg 30).toNat - (s.getReg 29).toNat) / 4 + 1)

/-- The two states differ at most in the tracing flag and the trace. -/
def EqualButTracing (s t : State) : Prop :=
  t.regs = s.regs ∧ t.pc = s.pc ∧ SameHiLo s t ∧ t.mem = s.mem ∧ SameStatus s t ∧ SameIo s t ∧ t.header = s.header ∧ t.cfg = s.cfg

end Sys2Proof.Claims

open Sys2Proof Sys2Proof.Machine Sys2Proof.Claims

/-! ## Encoding -/

/-- Decoding the word of a well-formed instruction gives the instruction back, with every operand, under either setting of
`STRICT_FIXED_FIELDS`.
Field places are the spec's decision D1 (log entry 31). -/
def Obligations.DecodeOfEncodeIsTheInstruction : Prop :=
  ∀ (strict : Bool) (i : Instr), i.wf = true → decodeWord strict (encode i) = .ok i

/-- R88: a word `w` is an instruction of a row exactly when `w & mask = match` (strict patterns).
Strictness is the spec's decision D14, field places D1 (log entries 9, 31). -/
def Obligations.WordIsAnInstructionWhenItMatchesItsRow : Prop :=
  ∀ (w : Word) (r : OpcodeRow), r ∈ opcodeTable →
    ((∃ i, decodeWord true w = .ok i ∧ i.row = r) ↔ r.holds w)

/-- R88: the patterns are pairwise disjoint.
Field places are the spec's decision D1 (log entry 31). -/
def Obligations.OpcodeRowsArePairwiseDisjoint : Prop :=
  ∀ (w : Word), opcodeTable.Pairwise (fun r q => ¬ (r.holds w ∧ q.holds w))

/-- R90, R89: with `STRICT_FIXED_FIELDS` a word is undefined exactly when it matches no row; without it, every word that is defined
stays the instruction it is, and the fixed fields are ignored: a word is an instruction exactly when it differs from a word that is that
instruction under the strict setting in fixed fields only, and words that differ only in ignored and fixed fields are the same instruction.
The parameter is the spec's decision D14 (log entry 9). -/
def Obligations.WordIsUndefinedWhenItMatchesNoRow : Prop :=
  (∀ w : Word, (∃ e, decodeWord true w = .error e) ↔ ∀ r ∈ opcodeTable, ¬ r.holds w) ∧
  (∀ (w : Word) (i : Instr), decodeWord true w = .ok i → decodeWord false w = .ok i) ∧
  (∀ (w : Word) (i : Instr), decodeWord false w = .ok i ↔
    ∃ v : Word, decodeWord true v = .ok i ∧ (w ^^^ v) &&& ~~~ i.fixedBits = 0#32) ∧
  (∀ (w w' : Word) (i : Instr), decodeWord false w = .ok i →
    (w ^^^ w') &&& ~~~ (i.ignoredBits ||| i.fixedBits) = 0#32 → decodeWord false w' = .ok i)

/-- R87: "Two different words whose only difference is in `-` fields are the same instruction", and what is decoded is well-formed. -/
def Obligations.IgnoredFieldsDoNotMatter : Prop :=
  ∀ (strict : Bool) (w w' : Word) (i : Instr), decodeWord strict w = .ok i →
    i.wf = true ∧ ((w ^^^ w') &&& ~~~ i.ignoredBits = 0#32 → decodeWord strict w' = .ok i)

/-- The words R111 to R186 and 95_test_vectors.md give for one instruction of each format decode to it.
Field places are the spec's decision D1 (log entry 31). -/
def Obligations.ExampleWordsDecode : Prop :=
  decodeWord true 0x01095021#32 = .ok (.add 8 9 10) ∧ decodeWord true 0x0109001B#32 = .ok (.div 8 9) ∧
  decodeWord true 0x00095103#32 = .ok (.srl 9 10 4) ∧ decodeWord true 0x03E00008#32 = .ok (.jr 31) ∧
  decodeWord true 0x0000404C#32 = .ok .notr ∧ decodeWord true 0x24080001#32 = .ok (.addi 0 8 1#16) ∧
  decodeWord true 0x0501FFFE#32 = .ok (.bgez 8 0xFFFE#16) ∧ decodeWord true 0xAFBFFFFF#32 = .ok (.sw 29 31 0xFFFF#16) ∧
  decodeWord true 0x0C000040#32 = .ok (.jal 64#26)

/-- R10, R85: the three functions on an immediate, by their numbers.
That `formOffset` keeps all 16 bits is the spec's decision D9 (log entry 17). -/
def Obligations.ImmediateFunctionsHaveTheirValues : Prop :=
  ∀ i : BitVec 16, (sgnExt i).toInt = i.toInt ∧ (zeroExt i).toNat = i.toNat ∧ (formOffset i).toInt = 4 * i.toInt ∧
    sgnExt 0xFFFF#16 = 0xFFFFFFFF#32 ∧ zeroExt 0xFFFF#16 = 0x0000FFFF#32

/-- R11: `formAddress(P, a)` is the high four bits of `P`, then `a`, then two zero bits; the source's example. -/
def Obligations.FormAddressConcatenates : Prop :=
  (∀ (p : Word) (a : BitVec 26), (formAddress p a).toNat = p.toNat / 2 ^ 28 * 2 ^ 28 + 4 * a.toNat) ∧
  formAddress 0xFFFACADE#32 0xDECADE#26 = 0xF37B2B78#32

/-! ## Registers and memory -/

/-- R21: register 0 reads 0; a write of 0 to it has no effect; a non-zero write is dropped under `discard` and is the error halt
`InvariantViolated` under `error`.
The parameter is the spec's decision D3 (log entry 3). -/
def Obligations.RegisterZeroIsHardwired : Prop :=
  ∀ (s : State) (v : Word), s.getReg 0 = 0#32 ∧ (s.setReg 0 v).getReg 0 = 0#32 ∧
    (v = 0#32 → s.setReg 0 v = s) ∧
    (v ≠ 0#32 → s.cfg.reg0Write = .discard → s.setReg 0 v = s) ∧
    (v ≠ 0#32 → s.cfg.reg0Write = .error → ErrorHaltOf s (s.setReg 0 v) .invariantViolated)

/-- R52: what `MemRead` answers, for 1 and 4 bytes, with its checks in order.
The two checks are the spec's decisions D11 and D12 (log entries 39, 8). -/
def Obligations.MemReadAnswers : Prop :=
  ∀ (s : State) (a : Word),
    (a.toNat + 1 > 65532 → s.memReadByte a = .error .addressOutOfRange) ∧
    (a.toNat + 1 ≤ 65532 → s.memReadByte a = .ok (readByte s.mem a.toNat)) ∧
    (a.toNat % 4 ≠ 0 → s.cfg.misalignedWord = .error → s.memReadWord a = .error .misalignedAccess) ∧
    (a.toNat % 4 = 0 ∨ s.cfg.misalignedWord = .bytewise → a.toNat + 4 > 65532 → s.memReadWord a = .error .addressOutOfRange) ∧
    (a.toNat % 4 = 0 ∨ s.cfg.misalignedWord = .bytewise → a.toNat + 4 ≤ 65532 →
      ∃ w, s.memReadWord a = .ok w ∧ w.toNat = littleEndian s.mem a.toNat)

/-- R53: `MemWrite` changes exactly the bytes named, or nothing when its checks fail.
The two checks are the spec's decisions D11 and D12 (log entries 39, 8). -/
def Obligations.MemWriteChangesExactlyItsBytes : Prop :=
  ∀ (s : State) (a : Word),
    (∀ b : Byte, a.toNat + 1 > 65532 → ErrorHaltOf s (s.memWriteByte a b) .addressOutOfRange) ∧
    (∀ b : Byte, a.toNat + 1 ≤ 65532 →
      readByte (s.memWriteByte a b).mem a.toNat = b ∧ AllButMem s (s.memWriteByte a b) ∧
      ∀ x, x ≠ a.toNat → readByte (s.memWriteByte a b).mem x = readByte s.mem x) ∧
    (∀ v : Word, a.toNat % 4 ≠ 0 → s.cfg.misalignedWord = .error →
      ErrorHaltOf s (s.memWriteWord a v) .misalignedAccess) ∧
    (∀ v : Word, a.toNat % 4 = 0 ∨ s.cfg.misalignedWord = .bytewise → a.toNat + 4 > 65532 →
      ErrorHaltOf s (s.memWriteWord a v) .addressOutOfRange) ∧
    (∀ v : Word, a.toNat % 4 = 0 ∨ s.cfg.misalignedWord = .bytewise → a.toNat + 4 ≤ 65532 →
      (∀ k, k < 4 → (readByte (s.memWriteWord a v).mem (a.toNat + k)).toNat = v.toNat / 2 ^ (8 * k) % 2 ^ 8) ∧
      AllButMem s (s.memWriteWord a v) ∧
      ∀ x, x < a.toNat ∨ a.toNat + 4 ≤ x → readByte (s.memWriteWord a v).mem x = readByte s.mem x)

/-- R68: what a mixed-width access sees after a word write and a byte write, at any word address.
R68 is derived by the spec. -/
def Obligations.MixedWidthAccessesAgree : Prop :=
  ∀ (s : State) (a : Word), a.toNat % 4 = 0 → a.toNat + 4 ≤ 65532 →
    (s.memWriteWord a 0xAABBCCDD#32).memReadByte a = .ok 0xDD#8 ∧
    (s.memWriteWord a 0xAABBCCDD#32).memReadByte (a + 1#32) = .ok 0xCC#8 ∧
    (s.memWriteWord a 0xAABBCCDD#32).memReadByte (a + 2#32) = .ok 0xBB#8 ∧
    (s.memWriteWord a 0xAABBCCDD#32).memReadByte (a + 3#32) = .ok 0xAA#8 ∧
    ((s.memWriteWord a 0xAABBCCDD#32).memWriteByte a 0x48#8).memReadWord a = .ok 0xAABBCC48#32

/-! ## Register-format instructions -/

/-- R111, R112: `ADD` and `SUB` write the exact sum and difference modulo 2^32 to `rd`, with no trap, and change nothing else.
That overflow wraps is the spec's decision D4 (log entry 18). -/
def Obligations.AddAndSubWrap : Prop :=
  ∀ (s : State) (rs rt rd : Reg) (v : Word),
    Writable s rd v →
    (v.toNat = ((s.getReg rs).toNat + (s.getReg rt).toNat) % 2 ^ 32 →
      ∃ t, exec (.add rs rt rd) s = .next t ∧ WritesOnly s t rd v) ∧
    (v = BitVec.ofInt 32 ((s.getReg rs).toInt - (s.getReg rt).toInt) →
      ∃ t, exec (.sub rs rt rd) s = .next t ∧ WritesOnly s t rd v)

/-- R117 to R120: `AND`, `BOR`, `NOR`, `XOR` write the word whose every bit is the operation of the sources' bits. -/
def Obligations.LogicalInstructionsWorkBitByBit : Prop :=
  ∀ (s : State) (rs rt rd : Reg) (v : Word), Writable s rd v →
    ((∀ k, k < 32 → v.getLsbD k = ((s.getReg rs).getLsbD k && (s.getReg rt).getLsbD k)) →
      ∃ t, exec (.and rs rt rd) s = .next t ∧ WritesOnly s t rd v) ∧
    ((∀ k, k < 32 → v.getLsbD k = ((s.getReg rs).getLsbD k || (s.getReg rt).getLsbD k)) →
      ∃ t, exec (.bor rs rt rd) s = .next t ∧ WritesOnly s t rd v) ∧
    ((∀ k, k < 32 → v.getLsbD k = !((s.getReg rs).getLsbD k || (s.getReg rt).getLsbD k)) →
      ∃ t, exec (.nor rs rt rd) s = .next t ∧ WritesOnly s t rd v) ∧
    ((∀ k, k < 32 → v.getLsbD k = ((s.getReg rs).getLsbD k ^^ (s.getReg rt).getLsbD k)) →
      ∃ t, exec (.xor rs rt rd) s = .next t ∧ WritesOnly s t rd v)

/-- R121, R122: `SLL` multiplies by 2^shift modulo 2^32, `SRL` divides the unsigned value by 2^shift; nothing else changes.
That `SLL` drops bits is the spec's decision D8 (log entry 21). -/
def Obligations.ShiftsAreLogical : Prop :=
  ∀ (s : State) (rt rd : Reg) (h : Nat) (v : Word), h < 32 → Writable s rd v →
    (v.toNat = (s.getReg rt).toNat * 2 ^ h % 2 ^ 32 →
      ∃ t, exec (.sll rt rd h) s = .next t ∧ WritesOnly s t rd v) ∧
    (v.toNat = (s.getReg rt).toNat / 2 ^ h →
      ∃ t, exec (.srl rt rd h) s = .next t ∧ WritesOnly s t rd v)

/-- R113: `MUL` sets `HI:LO` to the exact signed product, and writes no general register.
That the product is signed is the spec's decision D5 (log entry 19). -/
def Obligations.MulIsTheExactSignedProduct : Prop :=
  ∀ (s : State) (rs rt : Reg), ∃ t, exec (.mul rs rt) s = .next t ∧
    (t.hi ++ t.lo).toInt = (s.getReg rs).toInt * (s.getReg rt).toInt ∧ SetsHiLoOnly s t t.hi t.lo

/-- R114: `DIV` sets `LO` to the quotient truncated toward zero and `HI` to the remainder, which has the dividend's sign.
The rounding is the spec's decision D6 (log entry 20). -/
def Obligations.DivTruncatesTowardZero : Prop :=
  ∀ (s : State) (rs rt : Reg), (s.getReg rt) ≠ 0#32 →
    ¬ ((s.getReg rs).toInt = -2 ^ 31 ∧ (s.getReg rt).toInt = -1) →
    ∃ t, exec (.div rs rt) s = .next t ∧ SetsHiLoOnly s t t.hi t.lo ∧
      (s.getReg rs).toInt = t.lo.toInt * (s.getReg rt).toInt + t.hi.toInt ∧
      t.hi.toInt.natAbs < (s.getReg rt).toInt.natAbs ∧
      (0 ≤ (s.getReg rs).toInt → 0 ≤ t.hi.toInt) ∧ ((s.getReg rs).toInt ≤ 0 → t.hi.toInt ≤ 0)

/-- R202: `DIV` with a zero divisor: `HI`, `LO`, registers and memory keep their values, `pc` holds the `DIV`'s address plus 4, and
the machine is halted with an error. -/
def Obligations.DivisionByZeroIsAnErrorHalt : Prop :=
  ∀ (s : State) (rs rt : Reg), AtInstr s (.div rs rt) → s.getReg rt = 0#32 →
    ∃ t, step s = .next t ∧ t.status = .error .divisionByZero ∧ t.stderr = s.stderr ++ [.divisionByZero] ∧
      t.pc = s.pc + 4#32 ∧ SameHiLo s t ∧ SameRegs s t ∧ SameMem s t ∧ SameIo s t ∧
      t.tracing = s.tracing ∧ t.header = s.header ∧ t.cfg = s.cfg

/-- R114, D7: `DIV` of -2^31 by -1 goes by `DIV_OVERFLOW`: no result, the wrapped result, or an error halt (whose kind is the model's own
label, log entry 7). -/
def Obligations.DivOverflowGoesByItsParameter : Prop :=
  ∀ (s : State) (rs rt : Reg), (s.getReg rs).toInt = -2 ^ 31 → (s.getReg rt).toInt = -1 →
    (s.cfg.divOverflow = .fault → exec (.div rs rt) s = .fault .divOverflow) ∧
    (s.cfg.divOverflow = .wrap → ∃ t, exec (.div rs rt) s = .next t ∧ SetsHiLoOnly s t 0#32 0x80000000#32) ∧
    (s.cfg.divOverflow = .error → ∃ t, exec (.div rs rt) s = .next t ∧ ErrorHaltOf s t .divisionOverflow)

/-- R115, R116: `MFHI` and `MFLO` copy `HI` and `LO` to `rd` and change nothing else. -/
def Obligations.MovesFromHiAndLo : Prop :=
  ∀ (s : State) (rd : Reg),
    (Writable s rd s.hi → ∃ t, exec (.mfhi rd) s = .next t ∧ WritesOnly s t rd s.hi) ∧
    (Writable s rd s.lo → ∃ t, exec (.mflo rd) s = .next t ∧ WritesOnly s t rd s.lo)

/-- R27: `HI` is written only by `MUL` and `DIV` and read only by `MFHI`: any other instruction leaves it, and does the same whatever it
holds. -/
def Obligations.HiIsWrittenByMulDivAndReadByMfhi : Prop :=
  ∀ (i : Instr) (s t : State), exec i s = .next t →
    ((∀ rs rt, i ≠ .mul rs rt ∧ i ≠ .div rs rt) → t.hi = s.hi) ∧
    ((∀ rd, i ≠ .mfhi rd) → ∀ h : Word, ∃ t', exec i { s with hi := h } = .next t' ∧
      { t' with hi := 0#32 } = { t with hi := 0#32 })

/-- R28: `LO` is written only by `MUL` and `DIV` and read only by `MFLO`. -/
def Obligations.LoIsWrittenByMulDivAndReadByMflo : Prop :=
  ∀ (i : Instr) (s t : State), exec i s = .next t →
    ((∀ rs rt, i ≠ .mul rs rt ∧ i ≠ .div rs rt) → t.lo = s.lo) ∧
    ((∀ rd, i ≠ .mflo rd) → ∀ l : Word, ∃ t', exec i { s with lo := l } = .next t' ∧
      { t' with lo := 0#32 } = { t with lo := 0#32 })

/-- R123: `JR` takes the register's value as the new `pc`, unchecked, and changes nothing else.
That the target is not checked here is the spec's decision D15 (log entry 25). -/
def Obligations.JumpRegisterSetsPc : Prop :=
  ∀ (s : State) (rs : Reg), ∃ t, exec (.jr rs) s = .next t ∧ JumpsOnly s t (s.getReg rs)

/-! ## Immediate-format instructions -/

/-- R141: `ADDI` adds the sign-extended immediate modulo 2^32 into `rt`.
That overflow wraps is the spec's decision D4 (log entry 18). -/
def Obligations.AddImmediateSignExtends : Prop :=
  ∀ (s : State) (rs rt : Reg) (i : BitVec 16) (v : Word),
    v = BitVec.ofInt 32 ((s.getReg rs).toInt + i.toInt) → Writable s rt v →
    ∃ t, exec (.addi rs rt i) s = .next t ∧ WritesOnly s t rt v

/-- R142 to R144: `ANDI`, `BORI`, `XORI` work on the zero-extended immediate: `ANDI` clears the high half, `BORI` and `XORI` pass it
through. -/
def Obligations.LogicalImmediatesZeroExtend : Prop :=
  ∀ (s : State) (rs rt : Reg) (i : BitVec 16) (v : Word), Writable s rt v →
    ((∀ k, k < 32 → v.getLsbD k = ((s.getReg rs).getLsbD k && (decide (k < 16) && i.getLsbD k))) →
      ∃ t, exec (.andi rs rt i) s = .next t ∧ WritesOnly s t rt v) ∧
    ((∀ k, k < 32 → v.getLsbD k = ((s.getReg rs).getLsbD k || (decide (k < 16) && i.getLsbD k))) →
      ∃ t, exec (.bori rs rt i) s = .next t ∧ WritesOnly s t rt v) ∧
    ((∀ k, k < 32 → v.getLsbD k = ((s.getReg rs).getLsbD k ^^ (decide (k < 16) && i.getLsbD k))) →
      ∃ t, exec (.xori rs rt i) s = .next t ∧ WritesOnly s t rt v)

/-- R145, R146, R151: `BEQ` and `BNE` compare all 32 bits; taken, `pc` becomes `pc + 4 * signed16(immed)` modulo 2^32.
The offset's width and the wrap are the spec's decisions D9 and D10 (log entries 17, 18). -/
def Obligations.EqualityBranches : Prop :=
  ∀ (s : State) (rs rt : Reg) (o : BitVec 16) (target : Word),
    target = BitVec.ofInt 32 (s.pc.toNat + 4 * o.toInt) →
    (∃ t, exec (.beq rs rt o) s = .next t ∧ JumpsOnly s t (if s.getReg rs = s.getReg rt then target else s.pc)) ∧
    (∃ t, exec (.bne rs rt o) s = .next t ∧ JumpsOnly s t (if s.getReg rs = s.getReg rt then s.pc else target))

/-- R145, R147 to R150: the four branches that compare a register, read as signed, with zero.
The offset's width and the wrap are the spec's decisions D9 and D10 (log entries 17, 18). -/
def Obligations.SignBranches : Prop :=
  ∀ (s : State) (rs : Reg) (o : BitVec 16) (target : Word) (x : Int),
    target = BitVec.ofInt 32 (s.pc.toNat + 4 * o.toInt) → x = (s.getReg rs).toInt →
    (∃ t, exec (.bgez rs o) s = .next t ∧ JumpsOnly s t (if 0 ≤ x then target else s.pc)) ∧
    (∃ t, exec (.bgtz rs o) s = .next t ∧ JumpsOnly s t (if 0 < x then target else s.pc)) ∧
    (∃ t, exec (.blez rs o) s = .next t ∧ JumpsOnly s t (if x ≤ 0 then target else s.pc)) ∧
    (∃ t, exec (.bltz rs o) s = .next t ∧ JumpsOnly s t (if x < 0 then target else s.pc))

/-- R152, R153: `LBU` loads the byte at `x[rs] + 4 * signed16(immed)` modulo 2^32, zero-extended.
The offset's width and the wrap are the spec's decisions D9 and D10 (log entries 17, 18). -/
def Obligations.LoadByteZeroExtends : Prop :=
  ∀ (s : State) (rs rt : Reg) (o : BitVec 16) (ea v : Word),
    ea = BitVec.ofInt 32 ((s.getReg rs).toInt + 4 * o.toInt) → ea.toNat < 65532 →
    v.toNat = (readByte s.mem ea.toNat).toNat → Writable s rt v →
    ∃ t, exec (.lbu rs rt o) s = .next t ∧ WritesOnly s t rt v

/-- R152, R154: `LW` loads the little-endian word at its effective address; under `bytewise` at any address.
The offset's width, the wrap and `bytewise` are the spec's decisions D9, D10 and D12 (log entries 17, 18, 8). -/
def Obligations.LoadWordIsLittleEndian : Prop :=
  ∀ (s : State) (rs rt : Reg) (o : BitVec 16) (ea v : Word),
    ea = BitVec.ofInt 32 ((s.getReg rs).toInt + 4 * o.toInt) → ea.toNat + 4 ≤ 65532 →
    (ea.toNat % 4 = 0 ∨ s.cfg.misalignedWord = .bytewise) →
    v.toNat = littleEndian s.mem ea.toNat → Writable s rt v →
    ∃ t, exec (.lw rs rt o) s = .next t ∧ WritesOnly s t rt v

/-- R152, R155: `SB` stores the least significant byte of `x[rt]` at its effective address and changes nothing else.
The offset's width and the wrap are the spec's decisions D9 and D10 (log entries 17, 18). -/
def Obligations.StoreByteChangesOneByte : Prop :=
  ∀ (s : State) (rs rt : Reg) (o : BitVec 16) (ea : Word),
    ea = BitVec.ofInt 32 ((s.getReg rs).toInt + 4 * o.toInt) → ea.toNat < 65532 →
    ∃ t, exec (.sb rs rt o) s = .next t ∧ (readByte t.mem ea.toNat).toNat = (s.getReg rt).toNat % 2 ^ 8 ∧
      (∀ a, a ≠ ea.toNat → readByte t.mem a = readByte s.mem a) ∧ AllButMem s t

/-- R152, R156: `SW` stores the four bytes of `x[rt]`, least significant first, at its effective address and changes nothing else.
The offset's width, the wrap and `bytewise` are the spec's decisions D9, D10 and D12 (log entries 17, 18, 8). -/
def Obligations.StoreWordChangesFourBytes : Prop :=
  ∀ (s : State) (rs rt : Reg) (o : BitVec 16) (ea : Word),
    ea = BitVec.ofInt 32 ((s.getReg rs).toInt + 4 * o.toInt) → ea.toNat + 4 ≤ 65532 →
    (ea.toNat % 4 = 0 ∨ s.cfg.misalignedWord = .bytewise) →
    ∃ t, exec (.sw rs rt o) s = .next t ∧ littleEndian t.mem ea.toNat = (s.getReg rt).toNat ∧
      (∀ a, a < ea.toNat ∨ ea.toNat + 4 ≤ a → readByte t.mem a = readByte s.mem a) ∧ AllButMem s t

/-- R205: an access outside memory, and a `PSTR` whose string has no zero byte in memory, is an error halt; no register or memory byte
is changed and `pc` has been advanced.
The error halt is the spec's decision D11 (log entry 39), and D23 for `PSTR` (R182; log entry 23). The address `x[rs] + 4 * signed16(immed)`
modulo 2^32 is R152's, and its width and wrap are the spec's decisions D9 and D10 (log entries 17, 18). -/
def Obligations.AccessOutsideMemoryIsAnErrorHalt : Prop :=
  ∀ (s : State) (rs rt : Reg) (o : BitVec 16) (ea : Word) (i : Instr),
    AtInstr s i → ea = BitVec.ofInt 32 ((s.getReg rs).toInt + 4 * o.toInt) →
    (((i = .lbu rs rt o ∨ i = .sb rs rt o) ∧ 65532 ≤ ea.toNat) ∨
     ((i = .lw rs rt o ∨ i = .sw rs rt o) ∧ (ea.toNat % 4 = 0 ∨ s.cfg.misalignedWord = .bytewise) ∧ 65532 < ea.toNat + 4) ∨
     (i = .pstr ∧ ∀ a, (s.getReg 4).toNat ≤ a → a < 65532 → readByte s.mem a ≠ 0#8)) →
    ∃ t, step s = .next t ∧ t.status = .error .addressOutOfRange ∧ t.stderr = s.stderr ++ [.addressOutOfRange] ∧
      t.pc = s.pc + 4#32 ∧ SameRegs s t ∧ SameHiLo s t ∧ SameMem s t ∧ SameIo s t ∧
      t.tracing = s.tracing ∧ t.header = s.header ∧ t.cfg = s.cfg

/-- R206, R211: a word access at an address with non-zero low two bits, under `MISALIGNED_WORD = error`, is an error halt, also where the
address is out of range; no register or memory byte is changed and `pc` has been advanced.
The error halt is the spec's decision D12 (log entry 8). The address is R152's, and its width and wrap are the spec's decisions D9 and D10
(log entries 17, 18). -/
def Obligations.MisalignedWordIsAnErrorHalt : Prop :=
  ∀ (s : State) (rs rt : Reg) (o : BitVec 16) (ea : Word) (i : Instr),
    AtInstr s i → ea = BitVec.ofInt 32 ((s.getReg rs).toInt + 4 * o.toInt) →
    (i = .lw rs rt o ∨ i = .sw rs rt o) → ea.toNat % 4 ≠ 0 → s.cfg.misalignedWord = .error →
    ∃ t, step s = .next t ∧ t.status = .error .misalignedAccess ∧ t.stderr = s.stderr ++ [.misalignedAccess] ∧
      t.pc = s.pc + 4#32 ∧ SameRegs s t ∧ SameHiLo s t ∧ SameMem s t ∧ SameIo s t ∧
      t.tracing = s.tracing ∧ t.header = s.header ∧ t.cfg = s.cfg

/-- R21 for every instruction with a named destination: with `REG0_WRITE = error`, an instruction whose result for register 0 is not zero is the
error halt `InvariantViolated` and changes no register and no memory.
The parameter is the spec's decision D3 (log entry 3). -/
def Obligations.WritingRegisterZeroIsAnErrorUnderError : Prop :=
  ∀ (s : State) (rs rt : Reg) (h : Nat) (i16 : BitVec 16), s.cfg.reg0Write = .error →
    (s.getReg rs + s.getReg rt ≠ 0#32 → ∃ t, exec (.add rs rt 0) s = .next t ∧ ErrorHaltOf s t .invariantViolated) ∧
    (s.getReg rs ≠ s.getReg rt → ∃ t, exec (.sub rs rt 0) s = .next t ∧ ErrorHaltOf s t .invariantViolated) ∧
    (s.getReg rs &&& s.getReg rt ≠ 0#32 → ∃ t, exec (.and rs rt 0) s = .next t ∧ ErrorHaltOf s t .invariantViolated) ∧
    (s.getReg rs ||| s.getReg rt ≠ 0#32 → ∃ t, exec (.bor rs rt 0) s = .next t ∧ ErrorHaltOf s t .invariantViolated) ∧
    (s.getReg rs ||| s.getReg rt ≠ 0xFFFFFFFF#32 → ∃ t, exec (.nor rs rt 0) s = .next t ∧ ErrorHaltOf s t .invariantViolated) ∧
    (s.getReg rs ≠ s.getReg rt → ∃ t, exec (.xor rs rt 0) s = .next t ∧ ErrorHaltOf s t .invariantViolated) ∧
    (s.getReg rt <<< h ≠ 0#32 → ∃ t, exec (.sll rt 0 h) s = .next t ∧ ErrorHaltOf s t .invariantViolated) ∧
    (s.getReg rt >>> h ≠ 0#32 → ∃ t, exec (.srl rt 0 h) s = .next t ∧ ErrorHaltOf s t .invariantViolated) ∧
    (s.hi ≠ 0#32 → ∃ t, exec (.mfhi 0) s = .next t ∧ ErrorHaltOf s t .invariantViolated) ∧
    (s.lo ≠ 0#32 → ∃ t, exec (.mflo 0) s = .next t ∧ ErrorHaltOf s t .invariantViolated) ∧
    (s.getReg rs + sgnExt i16 ≠ 0#32 → ∃ t, exec (.addi rs 0 i16) s = .next t ∧ ErrorHaltOf s t .invariantViolated) ∧
    (s.getReg rs &&& zeroExt i16 ≠ 0#32 → ∃ t, exec (.andi rs 0 i16) s = .next t ∧ ErrorHaltOf s t .invariantViolated) ∧
    (s.getReg rs ||| zeroExt i16 ≠ 0#32 → ∃ t, exec (.bori rs 0 i16) s = .next t ∧ ErrorHaltOf s t .invariantViolated) ∧
    (s.getReg rs ≠ zeroExt i16 → ∃ t, exec (.xori rs 0 i16) s = .next t ∧ ErrorHaltOf s t .invariantViolated) ∧
    ((s.effectiveAddress rs i16).toNat < 65532 → readByte s.mem (s.effectiveAddress rs i16).toNat ≠ 0#8 →
      ∃ t, exec (.lbu rs 0 i16) s = .next t ∧ ErrorHaltOf s t .invariantViolated) ∧
    ((s.effectiveAddress rs i16).toNat % 4 = 0 ∨ s.cfg.misalignedWord = .bytewise →
      (s.effectiveAddress rs i16).toNat + 4 ≤ 65532 →
      readWord s.mem (s.effectiveAddress rs i16).toNat ≠ 0#32 →
      ∃ t, exec (.lw rs 0 i16) s = .next t ∧ ErrorHaltOf s t .invariantViolated)

/-! ## Jumps -/

/-- R170 to R172: `JMP` and `JAL` go to the high four bits of `pc` with `4 * addr`; `JAL` links `pc`, the address after it, in register 31,
and `JMP` writes no register. -/
def Obligations.JumpsFormTheirTarget : Prop :=
  ∀ (s : State) (a : BitVec 26) (target : Word), target.toNat = s.pc.toNat / 2 ^ 28 * 2 ^ 28 + 4 * a.toNat →
    (∃ t, exec (.jmp a) s = .next t ∧ JumpsOnly s t target) ∧
    (∃ t, exec (.jal a) s = .next t ∧ t.pc = target ∧ t.getReg 31 = s.pc ∧ (∀ r, r ≠ 31 → t.getReg r = s.getReg r) ∧
      SameHiLo s t ∧ SameMem s t ∧ SameStatus s t ∧ SameIo s t ∧ SameVm s t)

/-- R173, R246: a `JR $ra`, in any state that still holds the link of a `JAL`, resumes at the instruction right after the `JAL`.
R173 is derived by the spec. -/
def Obligations.ReturnResumesAfterTheCall : Prop :=
  ∀ (s t : State) (a : BitVec 26), AtInstr s (.jal a) → step s = .next t →
    ∀ u : State, u.getReg 31 = t.getReg 31 → ∃ w, exec (.jr 31) u = .next w ∧ w.pc = s.pc + 4#32

/-! ## System calls -/

/-- R181: `EXIT` is the normal halt, with exit code 0, and changes nothing else; `pc` stays after it.
That `pc` stays is the spec's decision D15 (log entry 35). -/
def Obligations.ExitHaltsNormally : Prop :=
  ∀ (s : State), ∃ t, exec .exit s = .next t ∧ t.status = .exited ∧ t.exitCode = some 0 ∧ t.pc = s.pc ∧ SameRegs s t ∧
    SameHiLo s t ∧ SameMem s t ∧ SameIo s t ∧ SameVm s t ∧ t.stderr = s.stderr

/-- R182: `PSTR` prints the bytes before the first zero byte at or after `x[4]`, in order, and sets `x[2]` to their number.
The count in `x[2]` is the spec's decision D22 (log entry 22). -/
def Obligations.PrintStringPrintsUpToTheZero : Prop :=
  ∀ (s : State) (a n : Nat), a = (s.getReg 4).toNat → a + n < 65532 → readByte s.mem (a + n) = 0#8 →
    (∀ k, k < n → readByte s.mem (a + k) ≠ 0#8) →
    ∃ t, exec .pstr s = .next t ∧ t.stdout = s.stdout ++ (List.range n).map (fun k => readByte s.mem (a + k)) ∧
      (t.getReg 2).toNat = n ∧ (∀ r, r ≠ 2 → t.getReg r = s.getReg r) ∧ t.stdin = s.stdin ∧
      t.pc = s.pc ∧ SameHiLo s t ∧ SameMem s t ∧ SameStatus s t ∧ SameVm s t

/-- R183: `PCH` prints the low byte of `x[4]` and sets `x[2]` to it, zero-extended.
The value in `x[2]` is the spec's decision D22 (log entry 22). -/
def Obligations.PrintCharacterPrintsTheLowByte : Prop :=
  ∀ (s : State), ∃ t c, exec .pch s = .next t ∧ c.toNat = (s.getReg 4).toNat % 2 ^ 8 ∧ t.stdout = s.stdout ++ [c] ∧
    (t.getReg 2).toNat = c.toNat ∧ (∀ r, r ≠ 2 → t.getReg r = s.getReg r) ∧ t.stdin = s.stdin ∧
    t.pc = s.pc ∧ SameHiLo s t ∧ SameMem s t ∧ SameStatus s t ∧ SameVm s t

/-- R184: `RCH` sets `x[2]` to the next byte of standard input, zero-extended, and removes it; at end of input it sets `x[2]` to
`EOF_VALUE` and removes nothing.
The value at end of input is the spec's decision D22 (log entry 4). -/
def Obligations.ReadCharacterConsumesOneByte : Prop :=
  ∀ (s : State), ∃ t, exec .rch s = .next t ∧
    (∀ b rest, s.stdin = b :: rest → (t.getReg 2).toNat = b.toNat ∧ t.stdin = rest) ∧
    (s.stdin = [] → t.getReg 2 = s.cfg.eofValue ∧ t.stdin = []) ∧
    (∀ r, r ≠ 2 → t.getReg r = s.getReg r) ∧ t.stdout = s.stdout ∧
    t.pc = s.pc ∧ SameHiLo s t ∧ SameMem s t ∧ SameStatus s t ∧ SameVm s t

/-- R185, R186, R31: `STRA` turns tracing on and `NOTR` off, they change nothing else, and no other instruction changes the tracing
flag. -/
def Obligations.OnlyStraAndNotrSwitchTracing : Prop :=
  (∀ s : State, ∃ t, exec .stra s = .next t ∧ t.tracing = true ∧ t.trace = s.trace ∧ t.header = s.header ∧ t.cfg = s.cfg ∧
    t.pc = s.pc ∧ SameRegs s t ∧ SameHiLo s t ∧ SameMem s t ∧ SameStatus s t ∧ SameIo s t) ∧
  (∀ s : State, ∃ t, exec .notr s = .next t ∧ t.tracing = false ∧ t.trace = s.trace ∧ t.header = s.header ∧ t.cfg = s.cfg ∧
    t.pc = s.pc ∧ SameRegs s t ∧ SameHiLo s t ∧ SameMem s t ∧ SameStatus s t ∧ SameIo s t) ∧
  (∀ (i : Instr) (s t : State), i ≠ .stra → i ≠ .notr → exec i s = .next t → t.tracing = s.tracing)

/-! ## The step -/

/-- R238: where the four bytes at `pc` decode to an instruction, a step of a running state that meets the invariants is that instruction's
meaning in the state whose `pc` is advanced, and then the end of the step (`finishStep`).
Where the invariants are checked is the spec's decision D15 (log entry 25). -/
def Obligations.StepRunsTheDecodedInstruction : Prop :=
  ∀ (s : State) (i : Instr), s.status = .running → s.Invariants →
    decodeBytes s.cfg.strictFixedFields
      [readByte s.mem s.pc.toNat, readByte s.mem (s.pc.toNat + 1), readByte s.mem (s.pc.toNat + 2), readByte s.mem (s.pc.toNat + 3)] =
        .ok (i, []) →
    step s = match exec i s.advancePc with
      | .next t => .next (t.finishStep s.pc i s.tracing)
      | .fault f => .fault f
      | .refused r => .refused r

/-- R238, R203, R243: the end of a step changes only the status, standard error and the trace: a running state that breaks an invariant
becomes the error halt `InvariantViolated`, with every effect of the instruction standing; any other keeps its status.
The moment of the check is the spec's decision D15 (log entry 25). -/
def Obligations.FinishStepChecksTheInvariants : Prop :=
  ∀ (s : State) (a : Word) (i : Instr) (b : Bool),
    SameRegs s (s.finishStep a i b) ∧ SameHiLo s (s.finishStep a i b) ∧ (s.finishStep a i b).mem = s.mem ∧
    (s.finishStep a i b).pc = s.pc ∧ SameIo s (s.finishStep a i b) ∧ (s.finishStep a i b).tracing = s.tracing ∧
    (s.finishStep a i b).header = s.header ∧ (s.finishStep a i b).cfg = s.cfg ∧
    (s.status = .running → ¬ s.Invariants →
      (s.finishStep a i b).status = .error .invariantViolated ∧ (s.finishStep a i b).stderr = s.stderr ++ [.invariantViolated]) ∧
    ((s.status = .running → s.Invariants) → SameStatus s (s.finishStep a i b))

/-- R204: a fetched word that is no instruction is an error halt: `pc` has been advanced and nothing else has changed.
The error halt is the spec's decision D13 (log entry 24). That such a word shows no line in the trace is the model's choice (log
entry 28). -/
def Obligations.UndefinedInstructionIsAnErrorHalt : Prop :=
  ∀ (s : State), s.status = .running → s.Invariants →
    ((s.cfg.strictFixedFields = true ∧ ∀ r ∈ opcodeTable, ¬ r.holds s.fetchWord) ∨
     (∃ e, decodeWord s.cfg.strictFixedFields s.fetchWord = .error e)) →
    ∃ t, step s = .next t ∧ t.status = .error .undefinedInstruction ∧ t.stderr = s.stderr ++ [.undefinedInstruction] ∧
      t.pc = s.pc + 4#32 ∧ SameRegs s t ∧ SameHiLo s t ∧ SameMem s t ∧ SameIo s t ∧ SameVm s t

/-- R35: `Exited` and `Error` are final: no step is defined from them.
That `step` answers a fault there is the model's (log entry 15). -/
def Obligations.HaltedMachineTakesNoStep : Prop :=
  ∀ (s : State), s.status ≠ .running → step s = .fault .halted

/-- R25: only `JR`, the branches, `JMP` and `JAL` write `pc` after its advance: a step of any other instruction leaves `pc` at the fetched
address plus 4. -/
def Obligations.OnlyTransfersWritePc : Prop :=
  ∀ (s t : State) (i : Instr), AtInstr s i → i.isTransfer = false → step s = .next t → t.pc = s.pc + 4#32

/-- R26: the instruction at 65528, the last word of memory, ends the run unless it transfers control: `EXIT` normally, every other with an
error halt. An instruction transfers no control when it is none of the transfers, or when it leaves `pc` right after it, as a branch not taken
does.
The moment of the check is the spec's decision D15 (log entry 25). -/
def Obligations.ExecutionNeverRunsOffTheEnd : Prop :=
  ∀ (s t : State) (i : Instr), AtInstr s i → s.pc = 65528#32 → step s = .next t → i.isTransfer = false ∨ t.pc = s.pc + 4#32 →
    if i = .exit then t.status = .exited else ∃ k, t.status = .error k

/-- R53, R57, R62: only `SB` and `SW` change memory, and a step changes no byte outside the bytes they store to. -/
def Obligations.OnlyStoresChangeMemory : Prop :=
  ∀ (s t : State) (i : Instr), AtInstr s i → step s = .next t →
    ∀ a, readByte t.mem a ≠ readByte s.mem a →
      (∃ rs rt o, i = .sb rs rt o ∧ a = (s.effectiveAddress rs o).toNat) ∨
      (∃ rs rt o, i = .sw rs rt o ∧ (s.effectiveAddress rs o).toNat ≤ a ∧ a < (s.effectiveAddress rs o).toNat + 4)

/-- R66: a word stored is the word the next fetch from that address sees.
That stores reach the fetch is the spec's decision D20 (log entry 26). -/
def Obligations.StoredWordIsFetched : Prop :=
  ∀ (s t : State) (rs rt : Reg) (o : BitVec 16), AtInstr s (.sw rs rt o) →
    wordAccessError s.cfg.misalignedWord (s.effectiveAddress rs o) = none → step s = .next t →
    ∀ u : State, u.mem = t.mem → u.pc = s.effectiveAddress rs o → u.fetchWord = s.getReg rt

/-- R34: a step only appends to standard output and only `PSTR` and `PCH` do; it only consumes standard input from the front and only `RCH`
does (R240). That the header and the parameters never change is the model's choice (log entry 1), and that the trace grows at its newest
end is the model's way to hold it (log entry 28). -/
def Obligations.StreamsMoveForward : Prop :=
  ∀ (s t : State), step s = .next t →
    s.stdout <+: t.stdout ∧ t.stdin <:+ s.stdin ∧ s.stderr <+: t.stderr ∧ s.trace <:+ t.trace ∧
    t.header = s.header ∧ t.cfg = s.cfg ∧
    (t.stdout ≠ s.stdout → s.fetch = .ok .pstr ∨ s.fetch = .ok .pch) ∧ (t.stdin ≠ s.stdin → s.fetch = .ok .rch)

/-- R31, R238, R240: tracing affects only what the VM prints: two states that differ only in the tracing flag and the trace step to states that
differ only in them.
The two channels are the spec's decision D19 (log entry 10). -/
def Obligations.TracingDoesNotAffectTheProgram : Prop :=
  ∀ (s s' t : State), EqualButTracing s s' → step s = .next t → ∃ t', step s' = .next t' ∧ EqualButTracing t t'

/-- R243: with tracing on before and after an instruction, the trace gains its line and, when the machine goes on, the state after it; an `EXIT`
gains its line only; with tracing off before and after, nothing is traced. The state shown is the one after the instruction.
The trace as items, one entry for a run of zeros, and one word shown of an empty data section are the model's choices (log entry 28). -/
def Obligations.TraceShowsLineThenState : Prop :=
  ∀ (s t : State) (i : Instr), AtInstr s i → step s = .next t → t.tracing = s.tracing →
    (s.tracing = true → t.status = .running →
      ∃ d, ShowsState d t ∧ t.trace = TraceItem.state d :: TraceItem.line s.pc i :: s.trace) ∧
    (s.tracing = true → i = .exit → t.trace = TraceItem.line s.pc i :: s.trace) ∧
    (s.tracing = false → t.trace = s.trace)

/-- R35, R201, R239: the exit code is none while running, 0 exactly after the normal halt, and, with legal parameters, not 0 after an
error.
The code's value is the spec's decision D18 (log entry 6). -/
def Obligations.ExitCodeTellsTheHalt : Prop :=
  ∀ (s : State), s.cfg.Legal →
    (s.exitCode = none ↔ s.status = .running) ∧ (s.exitCode = some 0 ↔ s.status = .exited) ∧
    ((∃ c, s.exitCode = some c ∧ c ≠ 0) ↔ ∃ k, s.status = .error k)

/-! ## Invariants of every step -/

/-- Every step keeps a state sound: memory in its canonical form, register 0 stored as 0, legal parameters, and the invariants of R36 while
the machine runs.
The canonical form is the model's (log entry 16), the moment of the check the spec's decision D15 (log entry 25). -/
def Obligations.StepKeepsStatesSound : Prop :=
  ∀ (s t : State), s.Sound → step s = .next t → t.Sound

/-- The state after reset is sound (its header is the model's choice: log entry 12). -/
def Obligations.ResetIsSound : Prop := State.reset.Sound

/-- R36, R203, R238: whatever the state, a step that leaves the machine running leaves it in a state that meets V1 to V11; so `pc` is aligned
and in memory and `$gp < $sp <= $fp` are multiples of 4.
The moment and the signedness of the check are the spec's decisions D15 and D25 (log entry 25). -/
def Obligations.RunningStatesMeetTheInvariants : Prop :=
  ∀ (s t : State), step s = .next t → t.status = .running →
    t.pc.toNat % 4 = 0 ∧ t.pc.toNat ≤ 65528 ∧
    (t.getReg 28).toNat % 4 = 0 ∧ (t.getReg 29).toNat % 4 = 0 ∧ (t.getReg 30).toNat % 4 = 0 ∧
    0 ≤ (t.getReg 28).toInt ∧ (t.getReg 28).toInt < (t.getReg 29).toInt ∧ (t.getReg 29).toInt ≤ (t.getReg 30).toInt ∧
    (t.getReg 30).toInt < t.cfg.maxStackHeight ∧ t.getReg 0 = 0#32

/-- U26, R238, R212: a machine whose `DIV_OVERFLOW` is not `fault` is never stuck: every state a run reaches has halted or steps on; and under
`fault` a step of a running state has no result only at a `DIV` of -2^31 by -1.
`DIV_OVERFLOW` is the spec's decision D7 (log entry 7). That a running state which breaks the invariants steps (to an error halt) is the
model's choice (log entry 14); U26 speaks of states that satisfy them. -/
def Obligations.RunningMachineIsNeverStuck : Prop :=
  (∀ s : State, s.cfg.divOverflow ≠ .fault → s.NeverStuck) ∧
  (∀ s : State, s.status = .running → (∀ t, step s ≠ .next t) →
    step s = .fault .divOverflow ∧ ∃ rs rt, s.fetch = .ok (.div rs rt) ∧
      (s.getReg rs).toInt = -2 ^ 31 ∧ (s.getReg rt).toInt = -1)

/-! ## Loading -/

/-- R233, R235, R37: a load of an acceptable file whose initial state meets the invariants leaves the program about to start: `pc` at the entry
point, `$gp` at the data, `$sp` and `$fp` at the stack bottom, every other register, `HI` and `LO` 0, the text at 0, the data at its start
address, every other byte 0, tracing on, nothing printed by the program.
The zeros of R235 rest on Figure 4, and the text at 0 on C1 (log entries 13, 37). -/
def Obligations.LoadLeavesTheInitialState : Prop :=
  ∀ (cfg : Config) (stdin file : List Byte) (h : Header) (t : State),
    BofAcceptable file → h = fileHeader file → t = load cfg stdin (some file) →
    h.stackBottom.toInt < cfg.maxStackHeight → 0 ≤ h.textStart.toInt →
    t.status = .running ∧ t.pc = h.textStart ∧ t.getReg 28 = h.dataStart ∧ t.getReg 29 = h.stackBottom ∧ t.getReg 30 = h.stackBottom ∧
    (∀ r, r ≠ 28 → r ≠ 29 → r ≠ 30 → t.getReg r = 0#32) ∧ t.hi = 0#32 ∧ t.lo = 0#32 ∧
    (∀ k, k < h.textLength.toNat → readByte t.mem k = file.getD (24 + k) 0#8) ∧
    (∀ k, k < h.dataLength.toNat → readByte t.mem (h.dataStart.toNat + k) = file.getD (24 + h.textLength.toNat + k) 0#8) ∧
    (∀ a, h.textLength.toNat ≤ a → (a < h.dataStart.toNat ∨ h.dataStart.toNat + h.dataLength.toNat ≤ a) → readByte t.mem a = 0#8) ∧
    t.tracing = true ∧ t.stdin = stdin ∧ t.stdout = [] ∧ t.stderr = [] ∧ t.header = h ∧ t.cfg = cfg

/-- R207, R234: the loader raises `LoadError`, before any instruction and with nothing printed, for each cause R234 lists.
The consequence is the spec's decision D17 (log entry 27). -/
def Obligations.LoaderRejectsBadFiles : Prop :=
  (∀ (cfg : Config) (stdin : List Byte), (load cfg stdin none).status = .error .loadError ∧ (load cfg stdin none).stdout = []) ∧
  (∀ (cfg : Config) (stdin file : List Byte) (h : Header), h = fileHeader file →
    (file.take 4 ≠ [0x42#8, 0x4F#8, 0x46#8, 0x00#8] ∨
     file.length < 24 + h.textLength.toNat + h.dataLength.toNat ∨
     h.dataStart.toNat % 4 ≠ 0 ∨ h.stackBottom.toNat % 4 ≠ 0 ∨ h.stackBottom.toInt ≤ h.dataStart.toInt ∨
     h.textStart.toNat % 4 ≠ 0 ∨ h.dataStart.toInt ≤ h.textStart.toInt ∨ h.textLength.toNat % 4 ≠ 0 ∨
     h.textLength.toInt < 0 ∨ h.dataLength.toInt < 0 ∨ h.dataStart.toInt < h.textLength.toInt ∨
     65532 < h.dataStart.toInt + h.dataLength.toInt) →
    (load cfg stdin (some file)).status = .error .loadError ∧ (load cfg stdin (some file)).stderr = [.loadError] ∧
    (load cfg stdin (some file)).stdout = [] ∧ (load cfg stdin (some file)).trace = [])

/-- R234, R238: with legal parameters every load leaves a sound state, whatever the file.
What is rejected is the spec's decision D17 (log entry 27). -/
def Obligations.EveryLoadIsSound : Prop :=
  ∀ (cfg : Config) (stdin : List Byte) (file : Option (List Byte)), cfg.Legal → (load cfg stdin file).Sound
end

