-- ==== Sys2Proof/Laws/Encoding.lean ====
section
/-! SUPPORT. The fields of the packed words (R81), so that no proof about encodings takes a word apart bit by bit again. -/

namespace Sys2Proof

@[simp] theorem regOfBits_bitsOfReg (r : Reg) : regOfBits (bitsOfReg r) = r := by
  apply Fin.ext
  simp [regOfBits, bitsOfReg]

@[simp] theorem bitsOfReg_regOfBits (b : BitVec 5) : bitsOfReg (regOfBits b) = b := by
  simp [regOfBits, bitsOfReg]

@[simp] theorem shiftEncodable_iff {h : Nat} : shiftEncodable h = true ↔ h < 32 := by simp [shiftEncodable]

/-- A shift amount the field can hold comes back from it (R125). -/
theorem toNat_shiftBits {h : Nat} (hh : shiftEncodable h = true) : (BitVec.ofNat 5 h).toNat = h := by
  have : h < 32 := shiftEncodable_iff.mp hh
  simp [Nat.mod_eq_of_lt this]

section packR
variable (rs rt rd sh : BitVec 5) (fn : BitVec 6)
@[simp] theorem opField_packR : opField (packR rs rt rd sh fn) = 0#6 := by
  apply BitVec.eq_of_getLsbD_eq; intro i hi
  simp only [opField, packR, BitVec.getLsbD_append, BitVec.getLsbD_extractLsb']
  interval_cases i <;> simp
@[simp] theorem rsField_packR : rsField (packR rs rt rd sh fn) = rs := by
  apply BitVec.eq_of_getLsbD_eq; intro i hi
  simp only [rsField, packR, BitVec.getLsbD_append, BitVec.getLsbD_extractLsb']
  interval_cases i <;> simp
@[simp] theorem rtField_packR : rtField (packR rs rt rd sh fn) = rt := by
  apply BitVec.eq_of_getLsbD_eq; intro i hi
  simp only [rtField, packR, BitVec.getLsbD_append, BitVec.getLsbD_extractLsb']
  interval_cases i <;> simp
@[simp] theorem rdField_packR : rdField (packR rs rt rd sh fn) = rd := by
  apply BitVec.eq_of_getLsbD_eq; intro i hi
  simp only [rdField, packR, BitVec.getLsbD_append, BitVec.getLsbD_extractLsb']
  interval_cases i <;> simp
@[simp] theorem shiftField_packR : shiftField (packR rs rt rd sh fn) = sh := by
  apply BitVec.eq_of_getLsbD_eq; intro i hi
  simp only [shiftField, packR, BitVec.getLsbD_append, BitVec.getLsbD_extractLsb']
  interval_cases i <;> simp
@[simp] theorem funcField_packR : funcField (packR rs rt rd sh fn) = fn := by
  apply BitVec.eq_of_getLsbD_eq; intro i hi
  simp only [funcField, packR, BitVec.getLsbD_append, BitVec.getLsbD_extractLsb']
  interval_cases i <;> simp
end packR

section packS
variable (code : BitVec 20)
@[simp] theorem opField_packS : opField (packS code) = 0#6 := by
  apply BitVec.eq_of_getLsbD_eq; intro i hi
  simp only [opField, packS, BitVec.getLsbD_append, BitVec.getLsbD_extractLsb']
  interval_cases i <;> simp
@[simp] theorem codeField_packS : codeField (packS code) = code := by
  apply BitVec.eq_of_getLsbD_eq; intro i hi
  simp only [codeField, packS, BitVec.getLsbD_append, BitVec.getLsbD_extractLsb']
  interval_cases i <;> simp
@[simp] theorem funcField_packS : funcField (packS code) = 12#6 := by
  apply BitVec.eq_of_getLsbD_eq; intro i hi
  simp only [funcField, packS, BitVec.getLsbD_append, BitVec.getLsbD_extractLsb']
  interval_cases i <;> simp
end packS

section packI
variable (op : BitVec 6) (rs rt : BitVec 5) (im : BitVec 16)
@[simp] theorem opField_packI : opField (packI op rs rt im) = op := by
  apply BitVec.eq_of_getLsbD_eq; intro i hi
  simp only [opField, packI, BitVec.getLsbD_append, BitVec.getLsbD_extractLsb']
  interval_cases i <;> simp
@[simp] theorem rsField_packI : rsField (packI op rs rt im) = rs := by
  apply BitVec.eq_of_getLsbD_eq; intro i hi
  simp only [rsField, packI, BitVec.getLsbD_append, BitVec.getLsbD_extractLsb']
  interval_cases i <;> simp
@[simp] theorem rtField_packI : rtField (packI op rs rt im) = rt := by
  apply BitVec.eq_of_getLsbD_eq; intro i hi
  simp only [rtField, packI, BitVec.getLsbD_append, BitVec.getLsbD_extractLsb']
  interval_cases i <;> simp
@[simp] theorem immedField_packI : immedField (packI op rs rt im) = im := by
  apply BitVec.eq_of_getLsbD_eq; intro i hi
  simp only [immedField, packI, BitVec.getLsbD_append, BitVec.getLsbD_extractLsb']
  interval_cases i <;> simp
end packI

section packJ
variable (op : BitVec 6) (a : BitVec 26)
@[simp] theorem opField_packJ : opField (packJ op a) = op := by
  apply BitVec.eq_of_getLsbD_eq; intro i hi
  simp only [opField, packJ, BitVec.getLsbD_append, BitVec.getLsbD_extractLsb']
  interval_cases i <;> simp
@[simp] theorem addrField_packJ : addrField (packJ op a) = a := by
  apply BitVec.eq_of_getLsbD_eq; intro i hi
  simp only [addrField, packJ, BitVec.getLsbD_append, BitVec.getLsbD_extractLsb']
  interval_cases i <;> simp
end packJ

/-- A word is its register-format fields (R81). -/
theorem word_eq_packR (w : Word) :
    w = opField w ++ rsField w ++ rtField w ++ rdField w ++ shiftField w ++ funcField w := by
  apply BitVec.eq_of_getLsbD_eq; intro i hi
  simp only [opField, rsField, rtField, rdField, shiftField, funcField, BitVec.getLsbD_append, BitVec.getLsbD_extractLsb']
  interval_cases i <;> simp

/-- A word is its system-call fields (R81). -/
theorem word_eq_packS (w : Word) : w = opField w ++ codeField w ++ funcField w := by
  apply BitVec.eq_of_getLsbD_eq; intro i hi
  simp only [opField, codeField, funcField, BitVec.getLsbD_append, BitVec.getLsbD_extractLsb']
  interval_cases i <;> simp

/-- A word is its immediate-format fields (R81). -/
theorem word_eq_packI (w : Word) : w = packI (opField w) (rsField w) (rtField w) (immedField w) := by
  apply BitVec.eq_of_getLsbD_eq; intro i hi
  simp only [packI, opField, rsField, rtField, immedField, BitVec.getLsbD_append, BitVec.getLsbD_extractLsb']
  interval_cases i <;> simp

/-- A word is its jump-format fields (R81). -/
theorem word_eq_packJ (w : Word) : w = packJ (opField w) (addrField w) := by
  apply BitVec.eq_of_getLsbD_eq; intro i hi
  simp only [packJ, opField, addrField, BitVec.getLsbD_append, BitVec.getLsbD_extractLsb']
  interval_cases i <;> simp

/-- The fixed-field check of R89 answers its instruction, or rejects the word by name. -/
theorem withFixed_ok {strict held : Bool} {i j : Instr} :
    withFixed strict held i = .ok j ↔ i = j ∧ (strict = true → held = true) := by
  cases strict <;> cases held <;> simp [withFixed]

end Sys2Proof
end

