-- ==== Sys2Proof/Laws/Memory.lean ====
section
/-! SUPPORT. The laws of memory: what a read sees after a write, and that every operation keeps the canonical form. -/

namespace Sys2Proof.Machine

/-! ### Reading after writing -/

theorem readByte_eraseCell (m : Memory) (x y : Nat) :
    readByte (eraseCell x m) y = if y = x then 0#8 else readByte m y := by
  induction m with
  | nil => simp [eraseCell, readByte]
  | cons c m ih =>
    obtain ⟨a, b⟩ := c
    by_cases ha : a = x
    · by_cases hy : y = x <;> simp_all [eraseCell, readByte]
    · by_cases hy : y = a <;> simp_all [eraseCell, readByte]

theorem readByte_insertCell (m : Memory) (x y : Nat) (v : Byte) (hx : ∀ c ∈ m, c.1 ≠ x) :
    readByte (insertCell x v m) y = if y = x then v else readByte m y := by
  induction m with
  | nil => simp [insertCell, readByte]
  | cons c m ih =>
    obtain ⟨a, b⟩ := c
    have hax : a ≠ x := hx (a, b) (by simp)
    have ih := ih (fun c hc => hx c (by simp [hc]))
    by_cases hlt : a < x
    · by_cases hy : y = a <;> simp_all [insertCell, readByte]
    · by_cases hy : y = x <;> simp [insertCell, readByte, hlt, hy]

theorem eraseCell_ne (m : Memory) (x : Nat) : ∀ c ∈ eraseCell x m, c.1 ≠ x := by
  induction m with
  | nil => simp [eraseCell]
  | cons c m ih =>
    obtain ⟨a, b⟩ := c
    by_cases ha : a = x
    · simpa [eraseCell, ha] using ih
    · intro c hc
      rcases List.mem_cons.mp (by simpa [eraseCell, ha] using hc) with rfl | hc
      · exact ha
      · exact ih c hc

/-- A read after a write gives the value written at that address and what was there at every other (R53, R58). -/
theorem readByte_writeByte (m : Memory) (x y : Nat) (v : Byte) :
    readByte (writeByte m x v) y = if y = x then v else readByte m y := by
  by_cases hv : v = 0#8
  · simp [writeByte, hv, readByte_eraseCell]
  · have := readByte_insertCell (eraseCell x m) x y v (eraseCell_ne m x)
    by_cases hy : y = x <;> simp_all [writeByte, readByte_eraseCell]

@[simp] theorem readByte_writeByte_same (m : Memory) (x : Nat) (v : Byte) : readByte (writeByte m x v) x = v := by
  simp [readByte_writeByte]

theorem readByte_writeByte_ne (m : Memory) (x y : Nat) (v : Byte) (h : y ≠ x) :
    readByte (writeByte m x v) y = readByte m y := by
  simp [readByte_writeByte, h]

/-- What every byte is after a word write (R53, R68). -/
theorem readByte_writeWord (m : Memory) (a y : Nat) (v : Word) :
    readByte (writeWord m a v) y =
      if y = a then byteOfWord v 0 else if y = a + 1 then byteOfWord v 1 else if y = a + 2 then byteOfWord v 2
      else if y = a + 3 then byteOfWord v 3 else readByte m y := by
  simp only [writeWord, readByte_writeByte]
  repeat' split
  all_goals first | rfl | omega

/-- The four bytes of a word put together are the word (R51). -/
@[simp] theorem wordOfBytes_byteOfWord (v : Word) :
    wordOfBytes (byteOfWord v 0) (byteOfWord v 1) (byteOfWord v 2) (byteOfWord v 3) = v := by
  apply BitVec.eq_of_getLsbD_eq
  intro i hi
  simp only [wordOfBytes, byteOfWord, BitVec.getLsbD_append, BitVec.getLsbD_extractLsb']
  have : i < 32 := hi
  interval_cases i <;> simp

/-- Byte `k` of a word made of four bytes (R51). -/
theorem byteOfWord_wordOfBytes (b0 b1 b2 b3 : Byte) :
    byteOfWord (wordOfBytes b0 b1 b2 b3) 0 = b0 ∧ byteOfWord (wordOfBytes b0 b1 b2 b3) 1 = b1 ∧
    byteOfWord (wordOfBytes b0 b1 b2 b3) 2 = b2 ∧ byteOfWord (wordOfBytes b0 b1 b2 b3) 3 = b3 := by
  refine ⟨?_, ?_, ?_, ?_⟩ <;>
  · apply BitVec.eq_of_getLsbD_eq
    intro i hi
    simp only [wordOfBytes, byteOfWord, BitVec.getLsbD_append, BitVec.getLsbD_extractLsb']
    have : i < 8 := hi
    interval_cases i <;> simp

/-- A word read after a word write at the same address gives the word written (R53). -/
@[simp] theorem readWord_writeWord_same (m : Memory) (a : Nat) (v : Word) : readWord (writeWord m a v) a = v := by
  simp [readWord, readByte_writeWord]

/-- A word none of whose bytes is written reads as before. -/
theorem readWord_congr {m m' : Memory} {a : Nat} (h : ∀ k < 4, readByte m (a + k) = readByte m' (a + k)) :
    readWord m a = readWord m' a := by
  have h0 := h 0 (by omega); have h1 := h 1 (by omega); have h2 := h 2 (by omega); have h3 := h 3 (by omega)
  simp only [Nat.add_zero] at h0
  simp [readWord, h0, h1, h2, h3]

/-- What every byte is after a run of bytes is copied to memory (R233). -/
theorem readByte_writeBytes (m : Memory) (a y : Nat) (bs : List Byte) :
    readByte (writeBytes m a bs) y = if a ≤ y ∧ y < a + bs.length then bs.getD (y - a) 0#8 else readByte m y := by
  induction bs generalizing m a with
  | nil => simp [writeBytes]
  | cons b bs ih =>
    rw [writeBytes, ih, readByte_writeByte]
    by_cases h1 : y = a
    · subst h1
      simp
    · by_cases h2 : a ≤ y ∧ y < a + (b :: bs).length
      · have h3 : a + 1 ≤ y ∧ y < a + 1 + bs.length := by simp at h2; omega
        obtain ⟨d, rfl⟩ : ∃ d, y = a + 1 + d := ⟨y - (a + 1), by omega⟩
        have e1 : a + 1 + d - (a + 1) = d := by omega
        have e2 : a + 1 + d - a = d + 1 := by omega
        rw [if_pos h3, if_pos h2, e1, e2, List.getD_cons_succ]
      · have h3 : ¬ (a + 1 ≤ y ∧ y < a + 1 + bs.length) := by simp at h2; omega
        rw [if_neg h3, if_neg h1, if_neg h2]

/-! ### The canonical form -/

theorem memWfFrom_mono {lo lo' : Nat} {m : Memory} (h : lo' ≤ lo) (hm : memWfFrom lo m = true) : memWfFrom lo' m = true := by
  cases m with
  | nil => rfl
  | cons c m =>
    obtain ⟨a, b⟩ := c
    simp only [memWfFrom, Bool.and_eq_true, decide_eq_true_eq] at hm ⊢
    exact ⟨⟨⟨by omega, hm.1.1.2⟩, hm.1.2⟩, hm.2⟩

theorem memWfFrom_eraseCell {lo : Nat} {m : Memory} (x : Nat) (hm : memWfFrom lo m = true) :
    memWfFrom lo (eraseCell x m) = true := by
  induction m generalizing lo with
  | nil => rfl
  | cons c m ih =>
    obtain ⟨a, b⟩ := c
    have hm' := hm
    simp only [memWfFrom, Bool.and_eq_true, decide_eq_true_eq] at hm'
    by_cases ha : a = x
    · rw [eraseCell, if_pos ha]
      exact memWfFrom_mono (by omega) (ih hm'.2)
    · rw [eraseCell, if_neg ha]
      simp only [memWfFrom, Bool.and_eq_true, decide_eq_true_eq]
      exact ⟨hm'.1, ih hm'.2⟩

theorem memWfFrom_insertCell {lo x : Nat} {m : Memory} {v : Byte} (hm : memWfFrom lo m = true) (hlo : lo ≤ x)
    (hx : x < memorySize) (hv : v ≠ 0#8) (hne : ∀ c ∈ m, c.1 ≠ x) : memWfFrom lo (insertCell x v m) = true := by
  induction m generalizing lo with
  | nil => simp [insertCell, memWfFrom, hlo, hx, hv]
  | cons c m ih =>
    obtain ⟨a, b⟩ := c
    have hm' := hm
    simp only [memWfFrom, Bool.and_eq_true, decide_eq_true_eq] at hm'
    have hax : a ≠ x := hne (a, b) (by simp)
    by_cases hlt : a < x
    · rw [insertCell, if_pos hlt]
      simp only [memWfFrom, Bool.and_eq_true, decide_eq_true_eq]
      exact ⟨hm'.1, ih hm'.2 (by omega) (fun c hc => hne c (by simp [hc]))⟩
    · rw [insertCell, if_neg hlt]
      simp only [memWfFrom, Bool.and_eq_true, decide_eq_true_eq]
      exact ⟨⟨⟨hlo, hx⟩, hv⟩, ⟨⟨by omega, hm'.1.1.2⟩, hm'.1.2⟩, hm'.2⟩

/-- A byte write in memory keeps the canonical form. -/
theorem writeByte_wf {m : Memory} {x : Nat} (v : Byte) (hm : m.wf = true) (hx : x < memorySize) :
    (writeByte m x v).wf = true := by
  unfold writeByte
  split
  · exact memWfFrom_eraseCell x hm
  · next hv => exact memWfFrom_insertCell (memWfFrom_eraseCell x hm) (Nat.zero_le _) hx hv (eraseCell_ne m x)

/-- A word write in memory keeps the canonical form. -/
theorem writeWord_wf {m : Memory} {a : Nat} (v : Word) (hm : m.wf = true) (ha : a + 4 ≤ memorySize) :
    (writeWord m a v).wf = true :=
  writeByte_wf _ (writeByte_wf _ (writeByte_wf _ (writeByte_wf _ hm (by omega)) (by omega)) (by omega)) (by omega)

/-- Copying bytes to memory keeps the canonical form. -/
theorem writeBytes_wf {m : Memory} {a : Nat} {bs : List Byte} (hm : m.wf = true) (ha : a + bs.length ≤ memorySize) :
    (writeBytes m a bs).wf = true := by
  induction bs generalizing m a with
  | nil => exact hm
  | cons b bs ih =>
    simp only [List.length_cons] at ha
    exact ih (writeByte_wf b hm (by omega)) (by omega)

/-- An address below the bound of a canonical memory reads 0. -/
theorem readByte_below {lo y : Nat} {m : Memory} (hm : memWfFrom lo m = true) (hy : y < lo) : readByte m y = 0#8 := by
  induction m generalizing lo with
  | nil => rfl
  | cons c m ih =>
    obtain ⟨a, b⟩ := c
    simp only [memWfFrom, Bool.and_eq_true, decide_eq_true_eq] at hm
    rw [readByte, if_neg (by omega)]
    exact ih hm.2 (by omega)

theorem memory_ext_from {lo : Nat} {m m' : Memory} (hm : memWfFrom lo m = true) (hm' : memWfFrom lo m' = true)
    (h : ∀ y, readByte m y = readByte m' y) : m = m' := by
  induction m generalizing lo m' with
  | nil =>
    cases m' with
    | nil => rfl
    | cons c m' =>
      obtain ⟨a, b⟩ := c
      simp only [memWfFrom, Bool.and_eq_true, decide_eq_true_eq] at hm'
      exact absurd (by simpa [readByte] using (h a).symm) hm'.1.2
  | cons c m ih =>
    obtain ⟨a, b⟩ := c
    have hm0 := hm
    simp only [memWfFrom, Bool.and_eq_true, decide_eq_true_eq] at hm
    cases m' with
    | nil => exact absurd (by simpa [readByte] using h a) hm.1.2
    | cons c' m' =>
      obtain ⟨a', b'⟩ := c'
      have hm0' := hm'
      simp only [memWfFrom, Bool.and_eq_true, decide_eq_true_eq] at hm'
      have haa : a = a' := by
        rcases Nat.lt_trichotomy a a' with hlt | heq | hgt
        · have hb := h a
          rw [readByte, if_pos rfl, readByte, if_neg (by omega), readByte_below hm'.2 (by omega)] at hb
          exact absurd hb hm.1.2
        · exact heq
        · have hb := h a'
          rw [readByte, if_neg (by omega), readByte_below hm.2 (by omega), readByte, if_pos rfl] at hb
          exact absurd hb.symm hm'.1.2
      subst haa
      have hbb : b = b' := by simpa [readByte] using h a
      subst hbb
      have : m = m' := ih hm.2 hm'.2 (fun y => by
        by_cases hy : y = a
        · rw [hy, readByte_below hm.2 (by omega), readByte_below hm'.2 (by omega)]
        · simpa [readByte, hy] using h y)
      rw [this]

/-- Two memories in canonical form that read the same at every address are the same data. -/
theorem memory_ext {m m' : Memory} (hm : m.wf = true) (hm' : m'.wf = true) (h : ∀ y, readByte m y = readByte m' y) : m = m' :=
  memory_ext_from hm hm' h

end Sys2Proof.Machine
end

