-- ==== Sys2Proof/Laws/State.lean ====
section
/-! SUPPORT. What each update of the state does to each field, one lemma per field per update. -/

namespace Sys2Proof.Machine

variable (s : State)

section raise
variable (k : ErrorKind)
@[simp] theorem State.raise_regs : (s.raise k).regs = s.regs := rfl
@[simp] theorem State.raise_pc : (s.raise k).pc = s.pc := rfl
@[simp] theorem State.raise_hi : (s.raise k).hi = s.hi := rfl
@[simp] theorem State.raise_lo : (s.raise k).lo = s.lo := rfl
@[simp] theorem State.raise_mem : (s.raise k).mem = s.mem := rfl
@[simp] theorem State.raise_tracing : (s.raise k).tracing = s.tracing := rfl
@[simp] theorem State.raise_status : (s.raise k).status = .error k := rfl
@[simp] theorem State.raise_stdin : (s.raise k).stdin = s.stdin := rfl
@[simp] theorem State.raise_stdout : (s.raise k).stdout = s.stdout := rfl
@[simp] theorem State.raise_trace : (s.raise k).trace = s.trace := rfl
@[simp] theorem State.raise_stderr : (s.raise k).stderr = s.stderr ++ [k] := rfl
@[simp] theorem State.raise_header : (s.raise k).header = s.header := rfl
@[simp] theorem State.raise_cfg : (s.raise k).cfg = s.cfg := rfl
@[simp] theorem State.raise_getReg (r : Reg) : (s.raise k).getReg r = s.getReg r := rfl
end raise

section halt
@[simp] theorem State.halt_regs : s.halt.regs = s.regs := rfl
@[simp] theorem State.halt_pc : s.halt.pc = s.pc := rfl
@[simp] theorem State.halt_hi : s.halt.hi = s.hi := rfl
@[simp] theorem State.halt_lo : s.halt.lo = s.lo := rfl
@[simp] theorem State.halt_mem : s.halt.mem = s.mem := rfl
@[simp] theorem State.halt_tracing : s.halt.tracing = s.tracing := rfl
@[simp] theorem State.halt_status : s.halt.status = .exited := rfl
@[simp] theorem State.halt_stdin : s.halt.stdin = s.stdin := rfl
@[simp] theorem State.halt_stdout : s.halt.stdout = s.stdout := rfl
@[simp] theorem State.halt_trace : s.halt.trace = s.trace := rfl
@[simp] theorem State.halt_stderr : s.halt.stderr = s.stderr := rfl
@[simp] theorem State.halt_header : s.halt.header = s.header := rfl
@[simp] theorem State.halt_cfg : s.halt.cfg = s.cfg := rfl
@[simp] theorem State.halt_getReg (r : Reg) : s.halt.getReg r = s.getReg r := rfl
end halt

section setPc
variable (v : Word)
@[simp] theorem State.setPc_regs : (s.setPc v).regs = s.regs := rfl
@[simp] theorem State.setPc_pc : (s.setPc v).pc = v := rfl
@[simp] theorem State.setPc_hi : (s.setPc v).hi = s.hi := rfl
@[simp] theorem State.setPc_lo : (s.setPc v).lo = s.lo := rfl
@[simp] theorem State.setPc_mem : (s.setPc v).mem = s.mem := rfl
@[simp] theorem State.setPc_tracing : (s.setPc v).tracing = s.tracing := rfl
@[simp] theorem State.setPc_status : (s.setPc v).status = s.status := rfl
@[simp] theorem State.setPc_stdin : (s.setPc v).stdin = s.stdin := rfl
@[simp] theorem State.setPc_stdout : (s.setPc v).stdout = s.stdout := rfl
@[simp] theorem State.setPc_trace : (s.setPc v).trace = s.trace := rfl
@[simp] theorem State.setPc_stderr : (s.setPc v).stderr = s.stderr := rfl
@[simp] theorem State.setPc_header : (s.setPc v).header = s.header := rfl
@[simp] theorem State.setPc_cfg : (s.setPc v).cfg = s.cfg := rfl
@[simp] theorem State.setPc_getReg (r : Reg) : (s.setPc v).getReg r = s.getReg r := rfl
end setPc

section advancePc
@[simp] theorem State.advancePc_regs : s.advancePc.regs = s.regs := rfl
@[simp] theorem State.advancePc_pc : s.advancePc.pc = s.pc + 4#32 := rfl
@[simp] theorem State.advancePc_hi : s.advancePc.hi = s.hi := rfl
@[simp] theorem State.advancePc_lo : s.advancePc.lo = s.lo := rfl
@[simp] theorem State.advancePc_mem : s.advancePc.mem = s.mem := rfl
@[simp] theorem State.advancePc_tracing : s.advancePc.tracing = s.tracing := rfl
@[simp] theorem State.advancePc_status : s.advancePc.status = s.status := rfl
@[simp] theorem State.advancePc_stdin : s.advancePc.stdin = s.stdin := rfl
@[simp] theorem State.advancePc_stdout : s.advancePc.stdout = s.stdout := rfl
@[simp] theorem State.advancePc_trace : s.advancePc.trace = s.trace := rfl
@[simp] theorem State.advancePc_stderr : s.advancePc.stderr = s.stderr := rfl
@[simp] theorem State.advancePc_header : s.advancePc.header = s.header := rfl
@[simp] theorem State.advancePc_cfg : s.advancePc.cfg = s.cfg := rfl
@[simp] theorem State.advancePc_getReg (r : Reg) : s.advancePc.getReg r = s.getReg r := rfl
end advancePc

section setHiLo
variable (h l : Word)
@[simp] theorem State.setHiLo_regs : (s.setHiLo h l).regs = s.regs := rfl
@[simp] theorem State.setHiLo_pc : (s.setHiLo h l).pc = s.pc := rfl
@[simp] theorem State.setHiLo_hi : (s.setHiLo h l).hi = h := rfl
@[simp] theorem State.setHiLo_lo : (s.setHiLo h l).lo = l := rfl
@[simp] theorem State.setHiLo_mem : (s.setHiLo h l).mem = s.mem := rfl
@[simp] theorem State.setHiLo_tracing : (s.setHiLo h l).tracing = s.tracing := rfl
@[simp] theorem State.setHiLo_status : (s.setHiLo h l).status = s.status := rfl
@[simp] theorem State.setHiLo_stdin : (s.setHiLo h l).stdin = s.stdin := rfl
@[simp] theorem State.setHiLo_stdout : (s.setHiLo h l).stdout = s.stdout := rfl
@[simp] theorem State.setHiLo_trace : (s.setHiLo h l).trace = s.trace := rfl
@[simp] theorem State.setHiLo_stderr : (s.setHiLo h l).stderr = s.stderr := rfl
@[simp] theorem State.setHiLo_header : (s.setHiLo h l).header = s.header := rfl
@[simp] theorem State.setHiLo_cfg : (s.setHiLo h l).cfg = s.cfg := rfl
@[simp] theorem State.setHiLo_getReg (r : Reg) : (s.setHiLo h l).getReg r = s.getReg r := rfl
end setHiLo

section setTracing
variable (b : Bool)
@[simp] theorem State.setTracing_regs : (s.setTracing b).regs = s.regs := rfl
@[simp] theorem State.setTracing_pc : (s.setTracing b).pc = s.pc := rfl
@[simp] theorem State.setTracing_hi : (s.setTracing b).hi = s.hi := rfl
@[simp] theorem State.setTracing_lo : (s.setTracing b).lo = s.lo := rfl
@[simp] theorem State.setTracing_mem : (s.setTracing b).mem = s.mem := rfl
@[simp] theorem State.setTracing_tracing : (s.setTracing b).tracing = b := rfl
@[simp] theorem State.setTracing_status : (s.setTracing b).status = s.status := rfl
@[simp] theorem State.setTracing_stdin : (s.setTracing b).stdin = s.stdin := rfl
@[simp] theorem State.setTracing_stdout : (s.setTracing b).stdout = s.stdout := rfl
@[simp] theorem State.setTracing_trace : (s.setTracing b).trace = s.trace := rfl
@[simp] theorem State.setTracing_stderr : (s.setTracing b).stderr = s.stderr := rfl
@[simp] theorem State.setTracing_header : (s.setTracing b).header = s.header := rfl
@[simp] theorem State.setTracing_cfg : (s.setTracing b).cfg = s.cfg := rfl
@[simp] theorem State.setTracing_getReg (r : Reg) : (s.setTracing b).getReg r = s.getReg r := rfl
end setTracing

section setMem
variable (m : Memory)
@[simp] theorem State.setMem_regs : (s.setMem m).regs = s.regs := rfl
@[simp] theorem State.setMem_pc : (s.setMem m).pc = s.pc := rfl
@[simp] theorem State.setMem_hi : (s.setMem m).hi = s.hi := rfl
@[simp] theorem State.setMem_lo : (s.setMem m).lo = s.lo := rfl
@[simp] theorem State.setMem_mem : (s.setMem m).mem = m := rfl
@[simp] theorem State.setMem_tracing : (s.setMem m).tracing = s.tracing := rfl
@[simp] theorem State.setMem_status : (s.setMem m).status = s.status := rfl
@[simp] theorem State.setMem_stdin : (s.setMem m).stdin = s.stdin := rfl
@[simp] theorem State.setMem_stdout : (s.setMem m).stdout = s.stdout := rfl
@[simp] theorem State.setMem_trace : (s.setMem m).trace = s.trace := rfl
@[simp] theorem State.setMem_stderr : (s.setMem m).stderr = s.stderr := rfl
@[simp] theorem State.setMem_header : (s.setMem m).header = s.header := rfl
@[simp] theorem State.setMem_cfg : (s.setMem m).cfg = s.cfg := rfl
@[simp] theorem State.setMem_getReg (r : Reg) : (s.setMem m).getReg r = s.getReg r := rfl
end setMem

section output
variable (bs : List Byte)
@[simp] theorem State.output_regs : (s.output bs).regs = s.regs := rfl
@[simp] theorem State.output_pc : (s.output bs).pc = s.pc := rfl
@[simp] theorem State.output_hi : (s.output bs).hi = s.hi := rfl
@[simp] theorem State.output_lo : (s.output bs).lo = s.lo := rfl
@[simp] theorem State.output_mem : (s.output bs).mem = s.mem := rfl
@[simp] theorem State.output_tracing : (s.output bs).tracing = s.tracing := rfl
@[simp] theorem State.output_status : (s.output bs).status = s.status := rfl
@[simp] theorem State.output_stdin : (s.output bs).stdin = s.stdin := rfl
@[simp] theorem State.output_stdout : (s.output bs).stdout = s.stdout ++ bs := rfl
@[simp] theorem State.output_trace : (s.output bs).trace = s.trace := rfl
@[simp] theorem State.output_stderr : (s.output bs).stderr = s.stderr := rfl
@[simp] theorem State.output_header : (s.output bs).header = s.header := rfl
@[simp] theorem State.output_cfg : (s.output bs).cfg = s.cfg := rfl
@[simp] theorem State.output_getReg (r : Reg) : (s.output bs).getReg r = s.getReg r := rfl
end output

section consumeInput
@[simp] theorem State.consumeInput_regs : s.consumeInput.regs = s.regs := rfl
@[simp] theorem State.consumeInput_pc : s.consumeInput.pc = s.pc := rfl
@[simp] theorem State.consumeInput_hi : s.consumeInput.hi = s.hi := rfl
@[simp] theorem State.consumeInput_lo : s.consumeInput.lo = s.lo := rfl
@[simp] theorem State.consumeInput_mem : s.consumeInput.mem = s.mem := rfl
@[simp] theorem State.consumeInput_tracing : s.consumeInput.tracing = s.tracing := rfl
@[simp] theorem State.consumeInput_status : s.consumeInput.status = s.status := rfl
@[simp] theorem State.consumeInput_stdin : s.consumeInput.stdin = s.stdin.tail := rfl
@[simp] theorem State.consumeInput_stdout : s.consumeInput.stdout = s.stdout := rfl
@[simp] theorem State.consumeInput_trace : s.consumeInput.trace = s.trace := rfl
@[simp] theorem State.consumeInput_stderr : s.consumeInput.stderr = s.stderr := rfl
@[simp] theorem State.consumeInput_header : s.consumeInput.header = s.header := rfl
@[simp] theorem State.consumeInput_cfg : s.consumeInput.cfg = s.cfg := rfl
@[simp] theorem State.consumeInput_getReg (r : Reg) : s.consumeInput.getReg r = s.getReg r := rfl
end consumeInput

/-! ### `getReg` and `setReg` -/

@[simp] theorem State.getReg_zero : s.getReg 0 = 0#32 := rfl

section setReg
variable (r : Reg) (v : Word)

/-- Everything a register write can be (R21): a write of a register other than 0, a write of register 0 that changes nothing, or
the error halt. -/
theorem State.setReg_cases :
    (r ≠ 0 ∧ s.setReg r v = { s with regs := s.regs.set r.val v }) ∨
    (r = 0 ∧ (v = 0#32 ∨ s.cfg.reg0Write = .discard) ∧ s.setReg r v = s) ∨
    (r = 0 ∧ v ≠ 0#32 ∧ s.cfg.reg0Write = .error ∧ s.setReg r v = s.raise .invariantViolated) := by
  by_cases hr : r = 0
  · by_cases hv : v = 0#32
    · simp [setReg, hr, hv]
    · cases hc : s.cfg.reg0Write <;> simp [setReg, hr, hv, hc]
  · simp [setReg, hr]

/-- The register writes that are no error halt (R21). -/
theorem State.setReg_ok (h : r ≠ 0 ∨ v = 0#32 ∨ s.cfg.reg0Write = .discard) :
    s.setReg r v = { s with regs := if r = 0 then s.regs else s.regs.set r.val v } := by
  rcases s.setReg_cases r v with ⟨hr, e⟩ | ⟨hr, -, e⟩ | ⟨hr, hv, hc, -⟩
  · rw [e, if_neg hr]
  · rw [e, if_pos hr]
  · simp [hr, hv, hc] at h

@[simp] theorem State.setReg_pc : (s.setReg r v).pc = s.pc := by
  rcases s.setReg_cases r v with ⟨-, e⟩ | ⟨-, -, e⟩ | ⟨-, -, -, e⟩ <;> simp [e]
@[simp] theorem State.setReg_hi : (s.setReg r v).hi = s.hi := by
  rcases s.setReg_cases r v with ⟨-, e⟩ | ⟨-, -, e⟩ | ⟨-, -, -, e⟩ <;> simp [e]
@[simp] theorem State.setReg_lo : (s.setReg r v).lo = s.lo := by
  rcases s.setReg_cases r v with ⟨-, e⟩ | ⟨-, -, e⟩ | ⟨-, -, -, e⟩ <;> simp [e]
@[simp] theorem State.setReg_mem : (s.setReg r v).mem = s.mem := by
  rcases s.setReg_cases r v with ⟨-, e⟩ | ⟨-, -, e⟩ | ⟨-, -, -, e⟩ <;> simp [e]
@[simp] theorem State.setReg_tracing : (s.setReg r v).tracing = s.tracing := by
  rcases s.setReg_cases r v with ⟨-, e⟩ | ⟨-, -, e⟩ | ⟨-, -, -, e⟩ <;> simp [e]
@[simp] theorem State.setReg_stdin : (s.setReg r v).stdin = s.stdin := by
  rcases s.setReg_cases r v with ⟨-, e⟩ | ⟨-, -, e⟩ | ⟨-, -, -, e⟩ <;> simp [e]
@[simp] theorem State.setReg_stdout : (s.setReg r v).stdout = s.stdout := by
  rcases s.setReg_cases r v with ⟨-, e⟩ | ⟨-, -, e⟩ | ⟨-, -, -, e⟩ <;> simp [e]
@[simp] theorem State.setReg_trace : (s.setReg r v).trace = s.trace := by
  rcases s.setReg_cases r v with ⟨-, e⟩ | ⟨-, -, e⟩ | ⟨-, -, -, e⟩ <;> simp [e]
@[simp] theorem State.setReg_header : (s.setReg r v).header = s.header := by
  rcases s.setReg_cases r v with ⟨-, e⟩ | ⟨-, -, e⟩ | ⟨-, -, -, e⟩ <;> simp [e]
@[simp] theorem State.setReg_cfg : (s.setReg r v).cfg = s.cfg := by
  rcases s.setReg_cases r v with ⟨-, e⟩ | ⟨-, -, e⟩ | ⟨-, -, -, e⟩ <;> simp [e]

/-- What every register reads after a write (R21): register 0 reads 0, the written one its value, every other what it read. -/
theorem State.setReg_getReg (q : Reg) :
    (s.setReg r v).getReg q = if q = r ∧ r ≠ 0 then v else s.getReg q := by
  rcases s.setReg_cases r v with ⟨hr, e⟩ | ⟨hr, -, e⟩ | ⟨hr, -, -, e⟩
  · rw [e]
    by_cases hq : q = r
    · subst hq; simp [getReg, hr]
    · have hne : (r : Nat) ≠ q := fun h => hq (Fin.ext h.symm)
      simp [getReg, hq, Vector.getElem_set_ne, hne]
  · rw [e]; simp [hr]
  · rw [e]; simp [hr]

@[simp] theorem State.setReg_getReg_self (h : r ≠ 0) : (s.setReg r v).getReg r = v := by
  simp [setReg_getReg, h]

theorem State.setReg_getReg_ne (q : Reg) (h : q ≠ r) : (s.setReg r v).getReg q = s.getReg q := by
  simp [setReg_getReg, h]

/-- The stored register 0 is never written. -/
@[simp] theorem State.setReg_regs_zero : (s.setReg r v).regs[0] = s.regs[0] := by
  rcases s.setReg_cases r v with ⟨hr, e⟩ | ⟨-, -, e⟩ | ⟨-, -, -, e⟩
  · rw [e]
    have : (r : Nat) ≠ 0 := fun h => hr (Fin.ext h)
    simp [Vector.getElem_set_ne, this]
  · rw [e]
  · rw [e]; rfl

/-- A register write leaves the status as it was, or is the error halt of R21. -/
theorem State.setReg_status :
    (s.setReg r v).status = s.status ∨ (s.setReg r v).status = .error .invariantViolated := by
  rcases s.setReg_cases r v with ⟨-, e⟩ | ⟨-, -, e⟩ | ⟨-, -, -, e⟩ <;> rw [e] <;> simp

@[simp] theorem State.setReg_status_ok (h : r ≠ 0 ∨ v = 0#32 ∨ s.cfg.reg0Write = .discard) :
    (s.setReg r v).status = s.status := by rw [setReg_ok _ _ _ h]

@[simp] theorem State.setReg_stderr_ok (h : r ≠ 0 ∨ v = 0#32 ∨ s.cfg.reg0Write = .discard) :
    (s.setReg r v).stderr = s.stderr := by rw [setReg_ok _ _ _ h]

end setReg

end Sys2Proof.Machine
end

