-- ==== Sys2Proof/Laws/Ops.lean ====
section
/-! SUPPORT. One lemma per shared operation of Machine/Ops.lean that says everything it can do. -/

namespace Sys2Proof.Machine

/-! ### The checks of an access (R52 to R55, R211) -/

theorem byteAccessError_none {a : Word} : byteAccessError a = none ↔ a.toNat < memorySize := by
  simp only [byteAccessError]
  split <;> simp <;> omega

theorem byteAccessError_some {a : Word} {k : ErrorKind} :
    byteAccessError a = some k ↔ k = .addressOutOfRange ∧ memorySize ≤ a.toNat := by
  simp only [byteAccessError]
  split
  · simp only [Option.some.injEq]; constructor
    · rintro rfl; exact ⟨rfl, by omega⟩
    · rintro ⟨rfl, -⟩; rfl
  · simp; omega

theorem wordAccessError_none {p : MisalignedWord} {a : Word} :
    wordAccessError p a = none ↔ (a.toNat % 4 = 0 ∨ p = .bytewise) ∧ a.toNat + 4 ≤ memorySize := by
  simp only [wordAccessError, bytesPerWord]
  cases p <;> by_cases h : a.toNat % 4 = 0 <;> by_cases h2 : a.toNat + 4 > memorySize <;> simp [h, h2] <;> omega

theorem wordAccessError_some {p : MisalignedWord} {a : Word} {k : ErrorKind} :
    wordAccessError p a = some k ↔
      (k = .misalignedAccess ∧ a.toNat % 4 ≠ 0 ∧ p = .error) ∨
      (k = .addressOutOfRange ∧ (a.toNat % 4 = 0 ∨ p = .bytewise) ∧ memorySize < a.toNat + 4) := by
  simp only [wordAccessError, bytesPerWord]
  cases p <;> by_cases h : a.toNat % 4 = 0 <;> by_cases h2 : a.toNat + 4 > memorySize <;> simp [h, h2, eq_comm]

/-! ### The accesses -/

theorem State.memReadByte_ok {s : State} {a : Word} (h : a.toNat < memorySize) :
    s.memReadByte a = .ok (readByte s.mem a.toNat) := by
  simp [memReadByte, byteAccessError_none.mpr h]

theorem State.memReadByte_error {s : State} {a : Word} (h : memorySize ≤ a.toNat) :
    s.memReadByte a = .error .addressOutOfRange := by
  simp [memReadByte, byteAccessError_some.mpr ⟨rfl, h⟩]

theorem State.memReadWord_ok {s : State} {a : Word} (h : wordAccessError s.cfg.misalignedWord a = none) :
    s.memReadWord a = .ok (readWord s.mem a.toNat) := by
  simp [memReadWord, h]

theorem State.memReadWord_error {s : State} {a : Word} {k : ErrorKind} (h : wordAccessError s.cfg.misalignedWord a = some k) :
    s.memReadWord a = .error k := by
  simp [memReadWord, h]

/-- A byte write either is the error halt, changing no memory, or writes the one byte (R53). -/
theorem State.memWriteByte_cases (s : State) (a : Word) (v : Byte) :
    (memorySize ≤ a.toNat ∧ s.memWriteByte a v = s.raise .addressOutOfRange) ∨
    (a.toNat < memorySize ∧ s.memWriteByte a v = s.setMem (writeByte s.mem a.toNat v)) := by
  rcases Nat.lt_or_ge a.toNat memorySize with h | h
  · exact .inr ⟨h, by simp [memWriteByte, byteAccessError_none.mpr h]⟩
  · exact .inl ⟨h, by simp [memWriteByte, byteAccessError_some.mpr ⟨rfl, h⟩]⟩

/-- A word write either is the error halt, changing no memory, or writes the four bytes (R53). -/
theorem State.memWriteWord_cases (s : State) (a : Word) (v : Word) :
    (∃ k, wordAccessError s.cfg.misalignedWord a = some k ∧ s.memWriteWord a v = s.raise k) ∨
    (wordAccessError s.cfg.misalignedWord a = none ∧ s.memWriteWord a v = s.setMem (writeWord s.mem a.toNat v)) := by
  cases h : wordAccessError s.cfg.misalignedWord a with
  | some k => exact .inl ⟨k, rfl, by simp [memWriteWord, h]⟩
  | none => exact .inr ⟨rfl, by simp [memWriteWord, h]⟩

/-! ### The string of `PSTR` (R182) -/

/-- The string found is the bytes up to the first zero byte, which lies within the bytes searched. -/
theorem readString_some {m : Memory} {a n : Nat} {bs : List Byte} (h : readString m a n = some bs) :
    bs.length < n ∧ readByte m (a + bs.length) = 0#8 ∧
    ∀ k, k < bs.length → bs[k]? = some (readByte m (a + k)) ∧ readByte m (a + k) ≠ 0#8 := by
  induction n generalizing a bs with
  | zero => simp [readString] at h
  | succ n ih =>
    rw [readString] at h
    split at h
    · next h0 => cases h; simpa using h0
    · next h0 =>
      split at h
      · cases h
      · next bs' hb =>
        cases h
        obtain ⟨h1, h2, h3⟩ := ih hb
        refine ⟨by simp; omega, by simpa [Nat.add_assoc, Nat.add_comm 1] using h2, ?_⟩
        intro k hk
        cases k with
        | zero => simpa using h0
        | succ k =>
          have := h3 k (by simpa using hk)
          simpa [Nat.add_assoc, Nat.add_comm 1] using this

/-- No string is found when no byte searched is zero. -/
theorem readString_none {m : Memory} {a n : Nat} :
    readString m a n = none ↔ ∀ k, k < n → readByte m (a + k) ≠ 0#8 := by
  induction n generalizing a with
  | zero => simp [readString]
  | succ n ih =>
    rw [readString]
    by_cases h0 : readByte m a = 0#8
    · simp only [h0, if_true]
      constructor
      · intro h; cases h
      · intro h; exact absurd h0 (by simpa using h 0 (by omega))
    · rw [if_neg h0]
      refine Iff.trans (b := readString m (a + 1) n = none) ?_ ?_
      · cases readString m (a + 1) n <;> simp
      rw [ih]
      constructor
      · intro h k hk
        cases k with
        | zero => simpa using h0
        | succ k => simpa [Nat.add_assoc, Nat.add_comm 1] using h k (by omega)
      · intro h k hk
        simpa [Nat.add_assoc, Nat.add_comm 1] using h (k + 1) (by omega)

/-! ### The end of a step -/

/-- The invariant check leaves the state as it is, or is the error halt on a running state that breaks an invariant (R203). -/
theorem State.checkInvariants_cases (s : State) :
    ((s.status ≠ .running ∨ s.Invariants) ∧ s.checkInvariants = s) ∨
    (s.status = .running ∧ ¬ s.Invariants ∧ s.checkInvariants = s.raise .invariantViolated) := by
  unfold checkInvariants
  by_cases h : s.status = .running ∧ ¬ s.Invariants
  · rw [if_pos h]; exact .inr ⟨h.1, h.2, rfl⟩
  · rw [if_neg h]
    refine .inl ⟨?_, rfl⟩
    by_cases hr : s.status = .running
    · exact .inr (by by_contra hi; exact h ⟨hr, hi⟩)
    · exact .inl hr

section finishStep
variable (s : State) (a : Word) (i : Instr) (b : Bool)

/-- The end of a step changes the trace and nothing else, beyond the invariant check's error halt. -/
theorem State.finishStep_eq :
    s.finishStep a i b = { s.checkInvariants with trace := s.checkInvariants.traceItems a i b ++ s.trace } := rfl

@[simp] theorem State.checkInvariants_regs : s.checkInvariants.regs = s.regs := by
  unfold checkInvariants; split <;> rfl
@[simp] theorem State.checkInvariants_pc : s.checkInvariants.pc = s.pc := by
  unfold checkInvariants; split <;> rfl
@[simp] theorem State.checkInvariants_hi : s.checkInvariants.hi = s.hi := by
  unfold checkInvariants; split <;> rfl
@[simp] theorem State.checkInvariants_lo : s.checkInvariants.lo = s.lo := by
  unfold checkInvariants; split <;> rfl
@[simp] theorem State.checkInvariants_mem : s.checkInvariants.mem = s.mem := by
  unfold checkInvariants; split <;> rfl
@[simp] theorem State.checkInvariants_tracing : s.checkInvariants.tracing = s.tracing := by
  unfold checkInvariants; split <;> rfl
@[simp] theorem State.checkInvariants_stdin : s.checkInvariants.stdin = s.stdin := by
  unfold checkInvariants; split <;> rfl
@[simp] theorem State.checkInvariants_stdout : s.checkInvariants.stdout = s.stdout := by
  unfold checkInvariants; split <;> rfl
@[simp] theorem State.checkInvariants_trace : s.checkInvariants.trace = s.trace := by
  unfold checkInvariants; split <;> rfl
@[simp] theorem State.checkInvariants_header : s.checkInvariants.header = s.header := by
  unfold checkInvariants; split <;> rfl
@[simp] theorem State.checkInvariants_cfg : s.checkInvariants.cfg = s.cfg := by
  unfold checkInvariants; split <;> rfl
@[simp] theorem State.checkInvariants_getReg (r : Reg) : s.checkInvariants.getReg r = s.getReg r := by
  unfold checkInvariants; split <;> rfl

@[simp] theorem State.finishStep_regs : (s.finishStep a i b).regs = s.regs := s.checkInvariants_regs
@[simp] theorem State.finishStep_pc : (s.finishStep a i b).pc = s.pc := s.checkInvariants_pc
@[simp] theorem State.finishStep_hi : (s.finishStep a i b).hi = s.hi := s.checkInvariants_hi
@[simp] theorem State.finishStep_lo : (s.finishStep a i b).lo = s.lo := s.checkInvariants_lo
@[simp] theorem State.finishStep_mem : (s.finishStep a i b).mem = s.mem := s.checkInvariants_mem
@[simp] theorem State.finishStep_tracing : (s.finishStep a i b).tracing = s.tracing := s.checkInvariants_tracing
@[simp] theorem State.finishStep_status : (s.finishStep a i b).status = s.checkInvariants.status := rfl
@[simp] theorem State.finishStep_stdin : (s.finishStep a i b).stdin = s.stdin := s.checkInvariants_stdin
@[simp] theorem State.finishStep_stdout : (s.finishStep a i b).stdout = s.stdout := s.checkInvariants_stdout
@[simp] theorem State.finishStep_trace :
    (s.finishStep a i b).trace = s.checkInvariants.traceItems a i b ++ s.trace := rfl
@[simp] theorem State.finishStep_stderr : (s.finishStep a i b).stderr = s.checkInvariants.stderr := rfl
@[simp] theorem State.finishStep_header : (s.finishStep a i b).header = s.header := s.checkInvariants_header
@[simp] theorem State.finishStep_cfg : (s.finishStep a i b).cfg = s.cfg := s.checkInvariants_cfg
@[simp] theorem State.finishStep_getReg (r : Reg) : (s.finishStep a i b).getReg r = s.getReg r := s.checkInvariants_getReg r

end finishStep

end Sys2Proof.Machine
end

