-- ==== Sys2Proof/Laws/Exec.lean ====
section
/-! SUPPORT. What the meanings can do, said once: a next state is one of eight shapes, and each shape belongs to named
instructions. Whole-machine claims split on these and never unfold a meaning. -/

namespace Sys2Proof.Machine

theorem execLbu_cases (rs rt : Reg) (o : BitVec 16) (s : State) :
    (∃ v, execLbu rs rt o s = .next (s.setReg rt v)) ∨ (∃ k, execLbu rs rt o s = .next (s.raise k)) := by
  unfold execLbu
  cases s.memReadByte (s.effectiveAddress rs o) with
  | ok b => exact .inl ⟨_, rfl⟩
  | error k => exact .inr ⟨_, rfl⟩

theorem execLw_cases (rs rt : Reg) (o : BitVec 16) (s : State) :
    (∃ v, execLw rs rt o s = .next (s.setReg rt v)) ∨ (∃ k, execLw rs rt o s = .next (s.raise k)) := by
  unfold execLw
  cases s.memReadWord (s.effectiveAddress rs o) with
  | ok b => exact .inl ⟨_, rfl⟩
  | error k => exact .inr ⟨_, rfl⟩

theorem execPstr_cases (s : State) :
    (∃ bs v, execPstr s = .next ((s.output bs).setReg regV0 v)) ∨ (∃ k, execPstr s = .next (s.raise k)) := by
  unfold execPstr
  cases s.stringAt (s.getReg regA0) with
  | some bs => exact .inl ⟨_, _, rfl⟩
  | none => exact .inr ⟨_, rfl⟩

/-- `DIV` answers a next state that writes `HI` and `LO`, the error halt, or the fault of R212. -/
theorem execDiv_cases (rs rt : Reg) (s : State) :
    (∃ h l, execDiv rs rt s = .next (s.setHiLo h l)) ∨ (∃ k, execDiv rs rt s = .next (s.raise k)) ∨
    (s.cfg.divOverflow = .fault ∧ execDiv rs rt s = .fault .divOverflow) := by
  unfold execDiv
  dsimp only
  split
  · exact .inr (.inl ⟨_, rfl⟩)
  · split
    · cases h : s.cfg.divOverflow with
      | fault => exact .inr (.inr ⟨rfl, rfl⟩)
      | wrap => exact .inl ⟨_, _, rfl⟩
      | error => exact .inr (.inl ⟨_, rfl⟩)
    · exact .inl ⟨_, _, rfl⟩

theorem State.branchIf_eq (s : State) (c : Bool) (o : BitVec 16) : ∃ v, s.branchIf c o = s.setPc v := by
  cases c
  · exact ⟨s.pc, rfl⟩
  · exact ⟨_, rfl⟩

/-- Everything a meaning can answer (R110, R140, R152, R180). -/
theorem exec_cases (i : Instr) (s : State) :
    (∃ k, exec i s = .next (s.raise k)) ∨
    (∃ r v, i.isTransfer = false ∧ i ≠ .rch ∧ i ≠ .pstr ∧ i ≠ .pch ∧ exec i s = .next (s.setReg r v)) ∨
    (∃ v, i.isTransfer = true ∧ exec i s = .next (s.setPc v)) ∨
    (∃ a v, i = .jal a ∧ exec i s = .next ((s.setReg regRa s.pc).setPc v)) ∨
    (∃ rs rt h l, (i = .mul rs rt ∨ i = .div rs rt) ∧ exec i s = .next (s.setHiLo h l)) ∨
    (∃ rs rt o, i = .sb rs rt o ∧ (s.effectiveAddress rs o).toNat < memorySize ∧
      exec i s = .next (s.setMem (writeByte s.mem (s.effectiveAddress rs o).toNat (byteOfWord (s.getReg rt) 0)))) ∨
    (∃ rs rt o, i = .sw rs rt o ∧ wordAccessError s.cfg.misalignedWord (s.effectiveAddress rs o) = none ∧
      exec i s = .next (s.setMem (writeWord s.mem (s.effectiveAddress rs o).toNat (s.getReg rt)))) ∨
    (∃ bs v, (i = .pstr ∨ i = .pch) ∧ exec i s = .next ((s.output bs).setReg regV0 v)) ∨
    (∃ v, i = .rch ∧ exec i s = .next (s.consumeInput.setReg regV0 v)) ∨
    (i = .exit ∧ exec i s = .next s.halt) ∨
    (∃ b, (i = .stra ∨ i = .notr) ∧ exec i s = .next (s.setTracing b)) ∨
    (∃ rs rt, i = .div rs rt ∧ s.cfg.divOverflow = .fault ∧ exec i s = .fault .divOverflow) := by
  cases i with
  | lbu rs rt o =>
    rcases execLbu_cases rs rt o s with ⟨v, h⟩ | ⟨k, h⟩
    · exact .inr (.inl ⟨_, _, rfl, by simp, by simp, by simp, h⟩)
    · exact .inl ⟨_, h⟩
  | lw rs rt o =>
    rcases execLw_cases rs rt o s with ⟨v, h⟩ | ⟨k, h⟩
    · exact .inr (.inl ⟨_, _, rfl, by simp, by simp, by simp, h⟩)
    · exact .inl ⟨_, h⟩
  | pstr =>
    rcases execPstr_cases s with ⟨bs, v, h⟩ | ⟨k, h⟩
    · iterate 7 apply Or.inr
      exact .inl ⟨_, _, .inl rfl, h⟩
    · exact .inl ⟨_, h⟩
  | div rs rt =>
    rcases execDiv_cases rs rt s with ⟨h, l, e⟩ | ⟨k, e⟩ | ⟨hc, e⟩
    · iterate 4 apply Or.inr
      exact .inl ⟨_, _, _, _, .inr rfl, e⟩
    · exact .inl ⟨_, e⟩
    · iterate 11 apply Or.inr
      exact ⟨_, _, rfl, hc, e⟩
  | sb rs rt o =>
    rcases s.memWriteByte_cases (s.effectiveAddress rs o) (byteOfWord (s.getReg rt) 0) with ⟨-, e⟩ | ⟨h, e⟩
    · exact .inl ⟨.addressOutOfRange, by simp [exec, execSb, e]⟩
    · iterate 5 apply Or.inr
      exact .inl ⟨_, _, _, rfl, h, by simp [exec, execSb, e]⟩
  | sw rs rt o =>
    rcases s.memWriteWord_cases (s.effectiveAddress rs o) (s.getReg rt) with ⟨k, -, e⟩ | ⟨h, e⟩
    · exact .inl ⟨k, by simp [exec, execSw, e]⟩
    · iterate 6 apply Or.inr
      exact .inl ⟨_, _, _, rfl, h, by simp [exec, execSw, e]⟩
  | mul rs rt =>
    iterate 4 apply Or.inr
    exact .inl ⟨_, _, _, _, .inl rfl, rfl⟩
  | pch =>
    iterate 7 apply Or.inr
    exact .inl ⟨_, _, .inr rfl, rfl⟩
  | rch =>
    iterate 8 apply Or.inr
    exact .inl ⟨_, rfl, rfl⟩
  | exit =>
    iterate 9 apply Or.inr
    exact .inl ⟨rfl, rfl⟩
  | stra =>
    iterate 10 apply Or.inr
    exact .inl ⟨_, .inl rfl, rfl⟩
  | notr =>
    iterate 10 apply Or.inr
    exact .inl ⟨_, .inr rfl, rfl⟩
  | jal a => exact .inr (.inr (.inr (.inl ⟨_, _, rfl, rfl⟩)))
  | jr rs => exact .inr (.inr (.inl ⟨_, rfl, rfl⟩))
  | jmp a => exact .inr (.inr (.inl ⟨_, rfl, rfl⟩))
  | beq rs rt o => obtain ⟨v, h⟩ := s.branchIf_eq (condEq (s.getReg rs) (s.getReg rt)) o; exact .inr (.inr (.inl ⟨v, rfl, congrArg _ h⟩))
  | bne rs rt o => obtain ⟨v, h⟩ := s.branchIf_eq (!condEq (s.getReg rs) (s.getReg rt)) o; exact .inr (.inr (.inl ⟨v, rfl, congrArg _ h⟩))
  | bgez rs o => obtain ⟨v, h⟩ := s.branchIf_eq (condGez (s.getReg rs)) o; exact .inr (.inr (.inl ⟨v, rfl, congrArg _ h⟩))
  | bgtz rs o => obtain ⟨v, h⟩ := s.branchIf_eq (condGtz (s.getReg rs)) o; exact .inr (.inr (.inl ⟨v, rfl, congrArg _ h⟩))
  | blez rs o => obtain ⟨v, h⟩ := s.branchIf_eq (condLez (s.getReg rs)) o; exact .inr (.inr (.inl ⟨v, rfl, congrArg _ h⟩))
  | bltz rs o => obtain ⟨v, h⟩ := s.branchIf_eq (condLtz (s.getReg rs)) o; exact .inr (.inr (.inl ⟨v, rfl, congrArg _ h⟩))
  | add | sub | mfhi | mflo | and | bor | nor | xor | sll | srl | addi | andi | bori | xori =>
    exact .inr (.inl ⟨_, _, rfl, by simp, by simp, by simp, rfl⟩)

/-- No meaning refuses. -/
theorem exec_ne_refused (i : Instr) (s : State) (r : Refusal) : exec i s ≠ .refused r := by
  rcases exec_cases i s with ⟨_, h⟩ | ⟨_, _, _, _, _, _, h⟩ | ⟨_, _, h⟩ | ⟨_, _, _, h⟩ | ⟨_, _, _, _, _, h⟩ | ⟨_, _, _, _, _, h⟩ |
    ⟨_, _, _, _, _, h⟩ | ⟨_, _, _, h⟩ | ⟨_, _, h⟩ | ⟨_, h⟩ | ⟨_, _, h⟩ | ⟨_, _, _, _, h⟩ <;> simp [h]

end Sys2Proof.Machine
end

