-- ==== Sys2Proof/Laws/PerInstr.lean ====
section
/-! SUPPORT. Statements for all instructions, one lemma per constructor. -/

namespace Sys2Proof.Laws.EncodesRow

/-- The word of an instruction matches the instruction's own row of the opcode table (R88). -/
def Statement (i : Instr) : Prop := i.row.holds (encode i)

/-- A 32-bit word matches a mask and a pattern when its register-format fields do. -/
theorem packR_holds (rs rt rd sh : BitVec 5) (fn : BitVec 6) (p : Word) (m : String) (h : p = packR 0 0 0 0 fn) :
    OpcodeRow.holds ⟨m, p, 0xFC00003F#32⟩ (packR rs rt rd sh fn) := by
  subst h
  apply BitVec.eq_of_getLsbD_eq; intro i hi
  simp only [packR, BitVec.getLsbD_and, BitVec.getLsbD_append]
  interval_cases i <;> simp

theorem packI_holds (op : BitVec 6) (rs rt : BitVec 5) (im : BitVec 16) (p : Word) (m : String) (h : p = packI op 0 0 0) :
    OpcodeRow.holds ⟨m, p, 0xFC000000#32⟩ (packI op rs rt im) := by
  subst h
  apply BitVec.eq_of_getLsbD_eq; intro i hi
  simp only [packI, BitVec.getLsbD_and, BitVec.getLsbD_append]
  interval_cases i <;> simp

theorem packI_fixed_holds (op : BitVec 6) (rs rt : BitVec 5) (im : BitVec 16) (p : Word) (m : String)
    (h : p = packI op 0 rt 0) : OpcodeRow.holds ⟨m, p, 0xFC1F0000#32⟩ (packI op rs rt im) := by
  subst h
  apply BitVec.eq_of_getLsbD_eq; intro i hi
  simp only [packI, BitVec.getLsbD_and, BitVec.getLsbD_append]
  interval_cases i <;> simp

theorem packJ_holds (op : BitVec 6) (a : BitVec 26) (p : Word) (m : String) (h : p = packJ op 0) :
    OpcodeRow.holds ⟨m, p, 0xFC000000#32⟩ (packJ op a) := by
  subst h
  apply BitVec.eq_of_getLsbD_eq; intro i hi
  simp only [packJ, BitVec.getLsbD_and, BitVec.getLsbD_append]
  interval_cases i <;> simp

theorem add (rs rt rd : Reg) : Statement (.add rs rt rd) := packR_holds _ _ _ _ _ _ _ (by decide)
theorem sub (rs rt rd : Reg) : Statement (.sub rs rt rd) := packR_holds _ _ _ _ _ _ _ (by decide)
theorem mul (rs rt : Reg) : Statement (.mul rs rt) := packR_holds _ _ _ _ _ _ _ (by decide)
theorem div (rs rt : Reg) : Statement (.div rs rt) := packR_holds _ _ _ _ _ _ _ (by decide)
theorem mfhi (rd : Reg) : Statement (.mfhi rd) := packR_holds _ _ _ _ _ _ _ (by decide)
theorem mflo (rd : Reg) : Statement (.mflo rd) := packR_holds _ _ _ _ _ _ _ (by decide)
theorem and (rs rt rd : Reg) : Statement (.and rs rt rd) := packR_holds _ _ _ _ _ _ _ (by decide)
theorem bor (rs rt rd : Reg) : Statement (.bor rs rt rd) := packR_holds _ _ _ _ _ _ _ (by decide)
theorem nor (rs rt rd : Reg) : Statement (.nor rs rt rd) := packR_holds _ _ _ _ _ _ _ (by decide)
theorem xor (rs rt rd : Reg) : Statement (.xor rs rt rd) := packR_holds _ _ _ _ _ _ _ (by decide)
theorem sll (rt rd : Reg) (h : Nat) : Statement (.sll rt rd h) := packR_holds _ _ _ _ _ _ _ (by decide)
theorem srl (rt rd : Reg) (h : Nat) : Statement (.srl rt rd h) := packR_holds _ _ _ _ _ _ _ (by decide)
theorem jr (rs : Reg) : Statement (.jr rs) := by
  revert rs
  unfold Statement OpcodeRow.holds
  decide
theorem exit : Statement .exit := by unfold Statement OpcodeRow.holds; decide
theorem pstr : Statement .pstr := by unfold Statement OpcodeRow.holds; decide
theorem pch : Statement .pch := by unfold Statement OpcodeRow.holds; decide
theorem rch : Statement .rch := by unfold Statement OpcodeRow.holds; decide
theorem stra : Statement .stra := by unfold Statement OpcodeRow.holds; decide
theorem notr : Statement .notr := by unfold Statement OpcodeRow.holds; decide
theorem addi (rs rt : Reg) (i : BitVec 16) : Statement (.addi rs rt i) := packI_holds _ _ _ _ _ _ (by decide)
theorem andi (rs rt : Reg) (i : BitVec 16) : Statement (.andi rs rt i) := packI_holds _ _ _ _ _ _ (by decide)
theorem bori (rs rt : Reg) (i : BitVec 16) : Statement (.bori rs rt i) := packI_holds _ _ _ _ _ _ (by decide)
theorem xori (rs rt : Reg) (i : BitVec 16) : Statement (.xori rs rt i) := packI_holds _ _ _ _ _ _ (by decide)
theorem beq (rs rt : Reg) (o : BitVec 16) : Statement (.beq rs rt o) := packI_holds _ _ _ _ _ _ (by decide)
theorem bgez (rs : Reg) (o : BitVec 16) : Statement (.bgez rs o) := packI_fixed_holds _ _ _ _ _ _ (by decide)
theorem bgtz (rs : Reg) (o : BitVec 16) : Statement (.bgtz rs o) := packI_fixed_holds _ _ _ _ _ _ (by decide)
theorem blez (rs : Reg) (o : BitVec 16) : Statement (.blez rs o) := packI_fixed_holds _ _ _ _ _ _ (by decide)
theorem bltz (rs : Reg) (o : BitVec 16) : Statement (.bltz rs o) := packI_fixed_holds _ _ _ _ _ _ (by decide)
theorem bne (rs rt : Reg) (o : BitVec 16) : Statement (.bne rs rt o) := packI_holds _ _ _ _ _ _ (by decide)
theorem lbu (rs rt : Reg) (o : BitVec 16) : Statement (.lbu rs rt o) := packI_holds _ _ _ _ _ _ (by decide)
theorem lw (rs rt : Reg) (o : BitVec 16) : Statement (.lw rs rt o) := packI_holds _ _ _ _ _ _ (by decide)
theorem sb (rs rt : Reg) (o : BitVec 16) : Statement (.sb rs rt o) := packI_holds _ _ _ _ _ _ (by decide)
theorem sw (rs rt : Reg) (o : BitVec 16) : Statement (.sw rs rt o) := packI_holds _ _ _ _ _ _ (by decide)
theorem jmp (a : BitVec 26) : Statement (.jmp a) := packJ_holds _ _ _ _ (by decide)
theorem jal (a : BitVec 26) : Statement (.jal a) := packJ_holds _ _ _ _ (by decide)

end Sys2Proof.Laws.EncodesRow
end

