-- ==== Sys2Proof/Laws/Step.lean ====
section
/-! SUPPORT. What a step can do, said once. -/

namespace Sys2Proof.Machine

/-- Everything a step that answers a next state can have done (R238): the halt of a state that breaks the invariants, the error halt of an
undefined word, or the execution of the instruction at `PC`. -/
theorem step_cases {s s' : State} (h : step s = .next s') :
    (s.status = .running ∧ ¬ s.Invariants ∧ s' = s.raise .invariantViolated) ∨
    (s.status = .running ∧ s.Invariants ∧ (∃ e, s.fetch = .error e) ∧ s' = s.advancePc.raise .undefinedInstruction) ∨
    (s.status = .running ∧ s.Invariants ∧ ∃ i t, s.fetch = .ok i ∧ exec i s.advancePc = .next t ∧
      s' = t.finishStep s.pc i s.tracing) := by
  unfold step State.cycle at h
  by_cases hr : s.status = .running
  · rw [if_pos hr] at h
    by_cases hi : s.Invariants
    · rw [if_pos hi] at h
      cases hf : s.fetch with
      | error e =>
        simp only [hf] at h
        exact .inr (.inl ⟨hr, hi, ⟨e, rfl⟩, by injection h with h; exact h.symm⟩)
      | ok i =>
        simp only [hf, State.executeAt] at h
        cases hx : exec i s.advancePc with
        | next t =>
          simp only [hx] at h
          exact .inr (.inr ⟨hr, hi, i, t, rfl, hx, by injection h with h; exact h.symm⟩)
        | fault f => simp [hx] at h
        | refused r => simp [hx] at h
    · rw [if_neg hi] at h
      exact .inl ⟨hr, hi, by injection h with h; exact h.symm⟩
  · rw [if_neg hr] at h; cases h

/-- A step at a running state that meets the invariants, where an instruction is decoded. -/
theorem step_of_fetch {s : State} {i : Instr} (hr : s.status = .running) (hi : s.Invariants) (hf : s.fetch = .ok i) :
    step s = s.executeAt i := by
  simp only [step, State.cycle, if_pos hr, if_pos hi, hf]

end Sys2Proof.Machine
end

