-- ==== Sys2Proof/Laws/Trace.lean ====
section
/-! SUPPORT. What the memory shown by the trace and the listing holds, said once (R243). -/

namespace Sys2Proof.Machine

variable (m : Memory)

/-- The words shown with their values are exactly those that are not zero, among the words asked for that lie in memory. -/
theorem word_mem_showWords (inRun : Bool) (a n x : Nat) (w : Word) :
    MemoryItem.word x w ∈ showWords m inRun a n ↔
      ∃ k, k < n ∧ x = a + 4 * k ∧ x + 4 ≤ memorySize ∧ readWord m x ≠ 0#32 ∧ w = readWord m x := by
  induction n generalizing inRun a with
  | zero => simp [showWords]
  | succ n ih =>
    have later : (∃ k, k < n ∧ x = a + 4 + 4 * k ∧ x + 4 ≤ memorySize ∧ readWord m x ≠ 0#32 ∧ w = readWord m x) ↔
        ∃ k, k < n + 1 ∧ k ≠ 0 ∧ x = a + 4 * k ∧ x + 4 ≤ memorySize ∧ readWord m x ≠ 0#32 ∧ w = readWord m x :=
      ⟨fun ⟨k, hk, hx, h⟩ => ⟨k + 1, by omega, by omega, by omega, h⟩,
       fun ⟨k, hk, h0, hx, h⟩ => ⟨k - 1, by omega, by omega, h⟩⟩
    rw [showWords]
    split
    · next hin =>
      have first : (∃ k, k < n + 1 ∧ x = a + 4 * k ∧ x + 4 ≤ memorySize ∧ readWord m x ≠ 0#32 ∧ w = readWord m x) ↔
          (x = a ∧ readWord m x ≠ 0#32 ∧ w = readWord m x) ∨
          ∃ k, k < n + 1 ∧ k ≠ 0 ∧ x = a + 4 * k ∧ x + 4 ≤ memorySize ∧ readWord m x ≠ 0#32 ∧ w = readWord m x := by
        constructor
        · rintro ⟨k, hk, hx, h⟩
          by_cases h0 : k = 0
          · exact .inl ⟨by omega, h.2⟩
          · exact .inr ⟨k, hk, h0, hx, h⟩
        · rintro (⟨rfl, h⟩ | ⟨k, hk, -, h⟩)
          · exact ⟨0, by omega, by omega, hin, h⟩
          · exact ⟨k, hk, h⟩
      rw [first, ← later]
      split
      · next hz =>
        rw [List.mem_append, ih]
        have : ¬ (x = a ∧ readWord m x ≠ 0#32 ∧ w = readWord m x) := fun ⟨hx, h, _⟩ => h (hx ▸ hz)
        cases inRun <;> simp [this]
      · next hz =>
        rw [List.mem_cons, ih]
        refine or_congr_left ⟨?_, ?_⟩
        · intro h; injection h with h1 h2; subst h1; exact ⟨rfl, hz, h2⟩
        · rintro ⟨rfl, -, rfl⟩; rfl
    · next hin =>
      simp only [List.not_mem_nil, false_iff]
      rintro ⟨k, -, hx, h, -⟩; omega

/-- The runs of zeros shown start exactly at the zero words that follow no zero word, the first by `inRun`. -/
theorem zeros_mem_showWords (inRun : Bool) (a n x : Nat) :
    MemoryItem.zeros x ∈ showWords m inRun a n ↔
      ∃ k, k < n ∧ x = a + 4 * k ∧ x + 4 ≤ memorySize ∧ readWord m x = 0#32 ∧
        if k = 0 then inRun = false else readWord m (a + 4 * (k - 1)) ≠ 0#32 := by
  induction n generalizing inRun a with
  | zero => simp [showWords]
  | succ n ih =>
    rw [showWords]
    split
    · next hin =>
      have split0 : ∀ z, (z = true ↔ readWord m a = 0#32) → ((∃ k, k < n + 1 ∧ x = a + 4 * k ∧ x + 4 ≤ memorySize ∧ readWord m x = 0#32 ∧
            if k = 0 then inRun = false else readWord m (a + 4 * (k - 1)) ≠ 0#32) ↔
          (x = a ∧ readWord m a = 0#32 ∧ inRun = false) ∨
          ∃ k, k < n ∧ x = a + 4 + 4 * k ∧ x + 4 ≤ memorySize ∧ readWord m x = 0#32 ∧
            if k = 0 then z = false else readWord m (a + 4 + 4 * (k - 1)) ≠ 0#32) := by
        intro z hz
        constructor
        · rintro ⟨k, hk, hx, hm, h0, h⟩
          obtain _ | k := k
          · exact .inl ⟨by omega, by simpa [hx] using h0, by simpa using h⟩
          · refine .inr ⟨k, by omega, by omega, hm, h0, ?_⟩
            rw [if_neg (by omega)] at h
            obtain _ | j := k
            · simpa [← hz] using h
            · have e : a + 4 + 4 * (j + 1 - 1) = a + 4 * (j + 1 + 1 - 1) := by omega
              rw [if_neg (by omega), e]; exact h
        · rintro (⟨rfl, h0, h⟩ | ⟨k, hk, hx, hm, h0, h⟩)
          · exact ⟨0, by omega, by omega, hin, h0, by simpa using h⟩
          · refine ⟨k + 1, by omega, by omega, hm, h0, ?_⟩
            rw [if_neg (by omega)]
            obtain _ | j := k
            · simpa [← hz] using h
            · have e : a + 4 * (j + 1 + 1 - 1) = a + 4 + 4 * (j + 1 - 1) := by omega
              rw [e]; simpa using h
      split
      · next hz =>
        rw [List.mem_append, ih, split0 true (by simp [hz])]
        refine or_congr_left ?_
        cases inRun <;> simp [hz]
      · next hz =>
        rw [List.mem_cons, ih, split0 false (by simp [hz])]
        exact or_congr_left ⟨fun h => (nomatch h), fun h => absurd h.2.1 hz⟩
    · next hin =>
      simp only [List.not_mem_nil, false_iff]
      rintro ⟨k, -, hx, h, -⟩; omega

/-- Every entry shown is at or after the first address. -/
theorem showWords_addr_ge (inRun : Bool) (a n : Nat) : ∀ p ∈ showWords m inRun a n, a ≤ p.addr := by
  rintro (⟨x, w⟩ | x) hp
  · obtain ⟨k, -, hx, -⟩ := (word_mem_showWords m inRun a n x w).mp hp
    simp only [MemoryItem.addr]; omega
  · obtain ⟨k, -, hx, -⟩ := (zeros_mem_showWords m inRun a n x).mp hp
    simp only [MemoryItem.addr]; omega

/-- The entries shown have rising addresses. -/
theorem showWords_sorted (inRun : Bool) (a n : Nat) : ((showWords m inRun a n).map MemoryItem.addr).Pairwise (· < ·) := by
  induction n generalizing inRun a with
  | zero => simp [showWords]
  | succ n ih =>
    have above : ∀ b, ∀ x ∈ (showWords m b (a + 4) n).map MemoryItem.addr, a < x := by
      intro b x hx
      obtain ⟨p, hp, rfl⟩ := List.mem_map.mp hx
      have := showWords_addr_ge m b (a + 4) n p hp
      omega
    rw [showWords]
    split
    · split
      · cases inRun
        · exact List.pairwise_cons.mpr ⟨above true, ih _ _⟩
        · exact ih _ _
      · exact List.pairwise_cons.mpr ⟨above false, ih _ _⟩
    · simp

/-! ### What a dump holds -/

variable (s : State)

@[simp] theorem State.dump_pc : s.dump.pc = s.pc := rfl
@[simp] theorem State.dump_hi : s.dump.hi = shownWord s.hi := rfl
@[simp] theorem State.dump_lo : s.dump.lo = shownWord s.lo := rfl
@[simp] theorem State.dump_reg (r : Reg) : s.dump.regs[r] = s.getReg r := by simp [State.dump, dumpOf]

/-- A special register is shown exactly when it is not zero (R243). -/
theorem shownWord_eq_some (w v : Word) : shownWord w = some v ↔ v = w ∧ w ≠ 0#32 := by
  by_cases h : w = 0#32
  · simp [shownWord, h]
  · simpa [shownWord, h] using eq_comm

theorem State.dump_data : s.dump.data = showWords s.mem false (s.getReg regGp).toNat (dataWords s.header) := by
  simp [State.dump, dumpOf]

theorem State.dump_stack :
    s.dump.stack = showWords s.mem false (s.getReg regSp).toNat (((s.getReg regFp).toNat - (s.getReg regSp).toNat) / bytesPerWord + 1) := by
  simp [State.dump, dumpOf]

/-- The end of a step changes nothing a dump shows (R243). -/
@[simp] theorem State.checkInvariants_dump : s.checkInvariants.dump = s.dump := by
  have h : s.checkInvariants.getReg = s.getReg := funext s.checkInvariants_getReg
  simp [State.dump, h]

@[simp] theorem State.finishStep_dump (a : Word) (i : Instr) (b : Bool) : (s.finishStep a i b).dump = s.dump :=
  s.checkInvariants_dump

end Sys2Proof.Machine
end

