-- ==== Sys2Proof/Tests/Slice0.lean ====
section
/-! SUPPORT. The model's own tests. Expected results are those of 95_test_vectors.md (T1 to T6 and parts 2 and 3), and the
witnesses show that the hypotheses of each obligation can hold together. -/

namespace Sys2Proof.Tests

open Sys2Proof.Machine Sys2Proof.Claims

/-! ### Helpers -/

/-- The launch state of the source's example with some registers set. -/
def launched (l : List (Reg × Word)) : State :=
  { State.reset with regs := l.foldl (fun v p => v.set p.1.val p.2 p.1.isLt) State.reset.regs }

/-- The same at another address. -/
def launchedAt (pc : Word) (l : List (Reg × Word)) : State := { launched l with pc := pc }

/-- The memory of 95_test_vectors.md section 2.8. -/
def vectorMemory : Memory :=
  writeBytes [] 1024 [0x48#8, 0x69#8, 0x0A#8, 0x00#8, 0xDD#8, 0xCC#8, 0xBB#8, 0xAA#8, 0x01#8, 0x00#8, 0x00#8, 0x80#8]

/-- The launch state over that memory. -/
def withVectors (l : List (Reg × Word)) : State := { launched l with mem := vectorMemory }

/-- The state with one parameter of R7 set. -/
def setCfg (s : State) (f : Config → Config) : State := { s with cfg := f s.cfg }

/-- `REG0_WRITE = error`. -/
def reg0Error (c : Config) : Config := { c with reg0Write := .error }

/-- `MISALIGNED_WORD = bytewise`. -/
def bytewise (c : Config) : Config := { c with misalignedWord := .bytewise }

/-- `DIV_OVERFLOW` set. -/
def divOverflowIs (p : DivOverflow) (c : Config) : Config := { c with divOverflow := p }

/-- One step on an instruction word placed at `pc` answers a next state of which a check holds. -/
def stepOn (w : Nat) (s : State) (check : State → Bool) : Bool :=
  match step (s.withFetchWord 32 w) with
  | .next t => check t
  | .fault _ => false
  | .refused _ => false

/-- The same, for the fault a step ends in. -/
def faultOf (s : State) : Option Fault :=
  match step s with
  | .next _ => none
  | .fault f => some f
  | .refused _ => none

/-- The step runs on and register `r` holds `v` after it, `pc` 4 further. -/
def runsTo (r : Reg) (v : Word) (pc : Word) (t : State) : Bool :=
  t.getReg r == v && t.pc == pc && t.status == Status.running

/-- The step is an error halt of a kind, with `pc` advanced. -/
def failsWith (k : ErrorKind) (pc : Word) (t : State) : Bool :=
  t.status == Status.error k && t.pc == pc && t.stderr == [k]

/-! ### Well-formedness: an ill-formed term for each check (R125) -/

theorem test_sll_by_width_is_ill_formed : (Instr.sll 9 10 32).wf = false := by decide
theorem test_srl_by_width_is_ill_formed : (Instr.srl 9 10 32).wf = false := by decide
theorem test_sll_by_31_is_well_formed : (Instr.sll 9 10 31).wf = true := by decide

/-! ### Decoding: for every constructor a word written out from the encoding of R81 and R88 -/

theorem test_decode_add : decodeTableWord 32 0x01095021 = some (.add 8 9 10) := by decide
theorem test_decode_sub : decodeTableWord 32 0x00095023 = some (.sub 0 9 10) := by decide
theorem test_decode_mul : decodeTableWord 32 0x01090019 = some (.mul 8 9) := by decide
theorem test_decode_div : decodeTableWord 32 0x0109001B = some (.div 8 9) := by decide
theorem test_decode_mfhi : decodeTableWord 32 0x00005010 = some (.mfhi 10) := by decide
theorem test_decode_mflo : decodeTableWord 32 0x00005012 = some (.mflo 10) := by decide
theorem test_decode_and : decodeTableWord 32 0x01095024 = some (.and 8 9 10) := by decide
theorem test_decode_bor : decodeTableWord 32 0x01095025 = some (.bor 8 9 10) := by decide
theorem test_decode_nor : decodeTableWord 32 0x01095027 = some (.nor 8 9 10) := by decide
theorem test_decode_xor : decodeTableWord 32 0x01095026 = some (.xor 8 9 10) := by decide
theorem test_decode_sll : decodeTableWord 32 0x000957C0 = some (.sll 9 10 31) := by decide
theorem test_decode_srl : decodeTableWord 32 0x00095103 = some (.srl 9 10 4) := by decide
theorem test_decode_jr : decodeTableWord 32 0x03E00008 = some (.jr 31) := by decide
theorem test_decode_exit : decodeTableWord 32 0x0000028C = some .exit := by decide
theorem test_decode_pstr : decodeTableWord 32 0x0000010C = some .pstr := by decide
theorem test_decode_pch : decodeTableWord 32 0x000002CC = some .pch := by decide
theorem test_decode_rch : decodeTableWord 32 0x0000030C = some .rch := by decide
theorem test_decode_stra : decodeTableWord 32 0x0000400C = some .stra := by decide
theorem test_decode_notr : decodeTableWord 32 0x0000404C = some .notr := by decide
theorem test_decode_addi : decodeTableWord 32 0x2509FFFF = some (.addi 8 9 0xFFFF#16) := by decide
theorem test_decode_andi : decodeTableWord 32 0x31098000 = some (.andi 8 9 0x8000#16) := by decide
theorem test_decode_bori : decodeTableWord 32 0x350900FF = some (.bori 8 9 0x00FF#16) := by decide
theorem test_decode_xori : decodeTableWord 32 0x3909FFFF = some (.xori 8 9 0xFFFF#16) := by decide
theorem test_decode_beq : decodeTableWord 32 0x11090003 = some (.beq 8 9 3#16) := by decide
theorem test_decode_bgez : decodeTableWord 32 0x05010005 = some (.bgez 8 5#16) := by decide
theorem test_decode_bgtz : decodeTableWord 32 0x1D00FFFD = some (.bgtz 8 0xFFFD#16) := by decide
theorem test_decode_blez : decodeTableWord 32 0x19000005 = some (.blez 8 5#16) := by decide
theorem test_decode_bltz : decodeTableWord 32 0x21000005 = some (.bltz 8 5#16) := by decide
theorem test_decode_bne : decodeTableWord 32 0x1509FFFE = some (.bne 8 9 0xFFFE#16) := by decide
theorem test_decode_lbu : decodeTableWord 32 0x93880001 = some (.lbu 28 8 1#16) := by decide
theorem test_decode_lw : decodeTableWord 32 0x8D28FFFF = some (.lw 9 8 0xFFFF#16) := by decide
theorem test_decode_sb : decodeTableWord 32 0xA3880001 = some (.sb 28 8 1#16) := by decide
theorem test_decode_sw : decodeTableWord 32 0xAFBFFFFF = some (.sw 29 31 0xFFFF#16) := by decide
theorem test_decode_jmp : decodeTableWord 32 0x0BFFFFFF = some (.jmp 0x3FFFFFF#26) := by decide
theorem test_decode_jal : decodeTableWord 32 0x0C000040 = some (.jal 64#26) := by decide

/-- Undefined words (95_test_vectors.md section 2.11 and the rows of 2.5, 2.7, 2.10), each with its reason (R90). -/
theorem test_undefined_words :
    decodeWord true 0xFC000000#32 = .error (.undefinedOp 63#6) ∧ decodeWord true 0x28000000#32 = .error (.undefinedOp 10#6) ∧
    decodeWord true 0x00000001#32 = .error (.undefinedFunc 1#6) ∧ decodeWord true 0x00000020#32 = .error (.undefinedFunc 32#6) ∧
    decodeWord true 0x0000000C#32 = .error (.undefinedCode 0#20) ∧ decodeWord true 0x0000014C#32 = .error (.undefinedCode 5#20) ∧
    decodeWord true 0x03E10008#32 = .error .fixedField ∧ decodeWord true 0x04000005#32 = .error .fixedField := by
  decide

/-- The all-zero word is a shift by zero (R91), and fewer than four bytes are no instruction (R80). -/
theorem test_zero_word_and_short_bytes :
    decodeWord true 0#32 = .ok (.sll 0 0 0) ∧ decodeBytes true [0x21#8, 0x50#8, 0x09#8] = .error .truncated := by
  decide

/-- Without `STRICT_FIXED_FIELDS` a word with another fixed field is still its instruction (R89). -/
theorem test_lenient_fixed_field :
    decodeWord false 0x03E10008#32 = .ok (.jr 31) ∧ decodeWord false 0x04000005#32 = .ok (.bgez 0 5#16) := by
  decide

/-- The mnemonics of the table's rows, in the order of R88's tables. -/
theorem test_opcode_table_has_35_rows : opcodeTable.length = 35 ∧ (opcodeTable.map OpcodeRow.mnemonic).Nodup := by decide

/-! ### Immediates (95_test_vectors.md section 2.1) -/

theorem test_form_offset_corners :
    formOffset 0x7FFF#16 = 0x0001FFFC#32 ∧ formOffset 0x8000#16 = 0xFFFE0000#32 ∧ formOffset 0x2000#16 = 0x00008000#32 ∧
    formOffset 0xDFFF#16 = 0xFFFF7FFC#32 := by
  decide

/-! ### One step of each instruction (95_test_vectors.md section 2) -/

theorem test_add_carry : stepOn 0x01095021 (launched [(8, 5), (9, 0xFFFFFFFE)]) (runsTo 10 3 4) = true := by decide
theorem test_add_source_is_destination : stepOn 0x01084021 (launched [(8, 0x40000001)]) (runsTo 8 0x80000002 4) = true := by decide
theorem test_sub_overflow : stepOn 0x01095023 (launched [(8, 0x80000000), (9, 0xFFFFFFFF)]) (runsTo 10 0x80000001 4) = true := by decide
theorem test_sub_negates_minimum : stepOn 0x00095023 (launched [(9, 0x80000000)]) (runsTo 10 0x80000000 4) = true := by decide
theorem test_mul_is_signed : stepOn 0x01090019 (launched [(8, 0xFFFFFFFF), (9, 1)])
    (fun t => t.hi == 0xFFFFFFFF#32 && t.lo == 0xFFFFFFFF#32) = true := by decide
theorem test_mul_large : stepOn 0x01090019 (launched [(8, 100000), (9, 100000)])
    (fun t => t.hi == 2#32 && t.lo == 0x540BE400#32) = true := by decide
theorem test_div_negative_dividend : stepOn 0x0109001B (launched [(8, 0xFFFFFFF9), (9, 2)])
    (fun t => t.hi == 0xFFFFFFFF#32 && t.lo == 0xFFFFFFFD#32) = true := by decide
theorem test_div_by_zero : stepOn 0x0109001B (launched [(8, 5)]) (failsWith .divisionByZero 4) = true := by decide
theorem test_mfhi : stepOn 0x00005010 ({ launched [] with hi := 0xDEADBEEF#32 }) (runsTo 10 0xDEADBEEF 4) = true := by decide
theorem test_mflo : stepOn 0x00005012 ({ launched [] with lo := 0x1234#32 }) (runsTo 10 0x1234 4) = true := by decide
theorem test_and : stepOn 0x01095024 (launched [(8, 0xFF00FF00), (9, 0x0FF00FF0)]) (runsTo 10 0x0F000F00 4) = true := by decide
theorem test_bor : stepOn 0x01095025 (launched [(8, 0xFF00FF00), (9, 0x0FF00FF0)]) (runsTo 10 0xFFF0FFF0 4) = true := by decide
theorem test_nor : stepOn 0x01095027 (launched [(8, 0xFF00FF00), (9, 0x0FF00FF0)]) (runsTo 10 0x000F000F 4) = true := by decide
theorem test_xor : stepOn 0x01095026 (launched [(8, 0xFF00FF00), (9, 0x0FF00FF0)]) (runsTo 10 0xF0F0F0F0 4) = true := by decide
theorem test_sll : stepOn 0x00095040 (launched [(9, 0x80000001)]) (runsTo 10 2 4) = true := by decide
theorem test_srl_by_31 : stepOn 0x000957C3 (launched [(9, 0xFFFFFFFF)]) (runsTo 10 1 4) = true := by decide
theorem test_jr : stepOn 0x03E00008 (launchedAt 24 [(31, 8)]) (runsTo 31 8 8) = true := by decide
theorem test_jr_misaligned : stepOn 0x01000008 (launched [(8, 6)]) (failsWith .invariantViolated 6) = true := by decide
theorem test_addi_sign_extends : stepOn 0x25098000 (launched []) (runsTo 9 0xFFFF8000 4) = true := by decide
theorem test_addi_breaks_stack_order : stepOn 0x27BD0004 (launched [])
    (fun t => t.getReg 29 == 4100#32 && failsWith .invariantViolated 4 t) = true := by decide
theorem test_andi_zero_extends : stepOn 0x31098000 (launched [(8, 0xFFFFFFFF)]) (runsTo 9 0x8000 4) = true := by decide
theorem test_bori : stepOn 0x3509FFFF (launched [(8, 0x12345678)]) (runsTo 9 0x1234FFFF 4) = true := by decide
theorem test_xori : stepOn 0x39098000 (launched [(8, 0xFFFFFFFF)]) (runsTo 9 0xFFFF7FFF 4) = true := by decide
theorem test_beq_taken : stepOn 0x11090003 (launchedAt 8 [(8, 3), (9, 3)]) (runsTo 8 3 24) = true := by decide
theorem test_beq_wraps : stepOn 0x1000FFFD (launchedAt 4 []) (failsWith .invariantViolated 0xFFFFFFFC) = true := by decide
theorem test_bne_taken : stepOn 0x15090003 (launchedAt 8 [(8, 3), (9, 4)]) (runsTo 8 3 24) = true := by decide
theorem test_bgez_on_minimum : stepOn 0x05010005 (launchedAt 100 [(8, 0x80000000)]) (runsTo 8 0x80000000 104) = true := by decide
theorem test_bgez_on_zero : stepOn 0x05010005 (launchedAt 100 []) (runsTo 8 0 124) = true := by decide
theorem test_bgtz_on_zero : stepOn 0x1D000005 (launchedAt 100 []) (runsTo 8 0 104) = true := by decide
theorem test_blez_on_zero : stepOn 0x19000005 (launchedAt 100 []) (runsTo 8 0 124) = true := by decide
theorem test_bltz_on_minus_one : stepOn 0x21000005 (launchedAt 100 [(8, 0xFFFFFFFF)]) (runsTo 8 0xFFFFFFFF 124) = true := by decide
theorem test_lbu : stepOn 0x93880001 (withVectors []) (runsTo 8 0xDD 4) = true := by decide
theorem test_lbu_past_memory : stepOn 0x91280000 (launched [(9, 65532)]) (failsWith .addressOutOfRange 4) = true := by decide
theorem test_lw_negative_offset : stepOn 0x8D28FFFF (withVectors [(9, 1032)]) (runsTo 8 0xAABBCCDD 4) = true := by decide
theorem test_lw_misaligned_before_range : stepOn 0x8D280000 (launched [(9, 65529)]) (failsWith .misalignedAccess 4) = true := by decide
theorem test_sb : stepOn 0xA3880001 (withVectors [(8, 0x12345648)])
    (fun t => readWord t.mem 1028 == 0xAABBCC48#32 && t.pc == 4#32) = true := by decide
theorem test_sw : stepOn 0xAFBFFFFF (launched [(31, 8)])
    (fun t => readByte t.mem 4092 == 8#8 && readByte t.mem 4095 == 0#8 && t.pc == 4#32) = true := by decide
theorem test_jmp : stepOn 0x08000005 (launchedAt 40 []) (runsTo 31 0 20) = true := by decide
theorem test_jal : stepOn 0x0C000040 (launchedAt 4 []) (runsTo 31 8 256) = true := by decide
theorem test_exit : stepOn 0x0000028C (launched []) (fun t => t.status == Status.exited && t.pc == 4#32 && t.exitCode == some 0) = true := by decide
theorem test_pstr : stepOn 0x0000010C (withVectors [(4, 1025)])
    (fun t => t.stdout == [0x69#8, 0x0A#8] && runsTo 2 2 4 t) = true := by decide
theorem test_pstr_unterminated : stepOn 0x0000010C ({ launched [(4, 65531)] with mem := [(65531, 0x41#8)] })
    (fun t => failsWith .addressOutOfRange 4 t && t.stdout == []) = true := by decide
theorem test_pch : stepOn 0x000002CC (launched [(4, 0xFFFFFFFF)]) (fun t => t.stdout == [0xFF#8] && runsTo 2 0xFF 4 t) = true := by decide
theorem test_rch : stepOn 0x0000030C ({ launched [] with stdin := [0x78#8, 0x79#8, 0x0A#8] })
    (fun t => t.stdin == [0x79#8, 0x0A#8] && runsTo 2 0x78 4 t) = true := by decide
theorem test_rch_at_end_of_input : stepOn 0x0000030C (launched [(2, 7)]) (runsTo 2 0xFFFFFFFF 4) = true := by decide
theorem test_stra : stepOn 0x0000400C ({ launched [] with tracing := false }) (fun t => t.tracing && t.pc == 4#32) = true := by decide
theorem test_notr : stepOn 0x0000404C (launched []) (fun t => !t.tracing && t.pc == 4#32) = true := by decide
theorem test_undefined_word : stepOn 0xFC000000 (launched []) (failsWith .undefinedInstruction 4) = true := by decide

/-! ### The other settings of R7 -/

theorem test_lw_bytewise : stepOn 0x8D280000 (setCfg (withVectors [(9, 1026)]) bytewise) (runsTo 8 0xCCDD000A 4) = true := by decide
theorem test_lw_bytewise_past_memory :
    stepOn 0x8D280000 (setCfg (launched [(9, 65529)]) bytewise) (failsWith .addressOutOfRange 4) = true := by decide
theorem test_register_zero_discard : stepOn 0x24000005 (launched []) (runsTo 0 0 4) = true := by decide
theorem test_register_zero_error : stepOn 0x24000005 (setCfg (launched []) reg0Error) (failsWith .invariantViolated 4) = true := by decide
theorem test_div_overflow_fault :
    faultOf ((launched [(8, 0x80000000), (9, 0xFFFFFFFF)]).withFetchWord 32 0x0109001B) = some .divOverflow := by decide
theorem test_div_overflow_wrap :
    stepOn 0x0109001B (setCfg (launched [(8, 0x80000000), (9, 0xFFFFFFFF)]) (divOverflowIs .wrap))
      (fun t => t.hi == 0#32 && t.lo == 0x80000000#32 && t.status == Status.running) = true := by decide

/-! ### Reset, the loader and the tracing output (T1 to T3) -/

/-- The bytes of `vm_test0.bof` (T3). -/
def vmTest0 : List Byte :=
  [0x42#8, 0x4F#8, 0x46#8, 0x00#8, 0x00#8, 0x00#8, 0x00#8, 0x00#8, 0x0C#8, 0x00#8, 0x00#8, 0x00#8] ++
  [0x00#8, 0x04#8, 0x00#8, 0x00#8, 0x00#8, 0x00#8, 0x00#8, 0x00#8, 0x00#8, 0x10#8, 0x00#8, 0x00#8] ++
  [0x0C#8, 0x40#8, 0x00#8, 0x00#8, 0x01#8, 0x00#8, 0x08#8, 0x24#8, 0x8C#8, 0x02#8, 0x00#8, 0x00#8]

/-- The state after reset is what a launch of the example's header leaves, with nothing loaded (log entry 12). -/
theorem test_reset_is_a_launch : (launchState defaultConfig exampleHeader [] []).showInitial = State.reset := by decide

theorem test_load_vm_test0 :
    let s := load defaultConfig [] (some vmTest0)
    s.status = .running ∧ s.pc = 0#32 ∧ s.getReg 28 = 1024#32 ∧ s.getReg 29 = 4096#32 ∧ readWord s.mem 4 = 0x24080001#32 := by
  decide

theorem test_load_bad_magic : (load defaultConfig [] (some (0x43#8 :: vmTest0.tail))).status = .error .loadError := by decide

/-- Figure 5: the `-p` listing. -/
theorem test_listing_vm_test0 :
    listing defaultConfig (some vmTest0) =
      some ⟨"Addr Instruction", [.instr 0 ⟨"STRA", []⟩, .instr 4 ⟨"ADDI", [.reg "$0", .reg "$t0", .num 1]⟩, .instr 8 ⟨"EXIT", []⟩],
        [.zeros 1024]⟩ := by
  decide

/-- Figure 4: an instruction's line, then the state after it, oldest first from the right. -/
theorem test_trace_line_then_state : stepOn 0x24080001 (launched [])
    (fun t => t.trace == .state t.dump :: .line 0#32 (.addi 0 8 1#16) :: State.reset.trace) = true := by decide

/-- Figure 4: no state is shown after `EXIT`. -/
theorem test_trace_exit_line_only : stepOn 0x0000028C (launched [])
    (fun t => t.trace == .line 0#32 .exit :: State.reset.trace) = true := by decide

/-- What the first dump of Figure 4 shows: no `HI` or `LO`, `1024: 0 ...` and `4096: 0 ...`. -/
theorem test_initial_dump :
    State.reset.dump.hi = none ∧ State.reset.dump.lo = none ∧ State.reset.dump.data = [.zeros 1024] ∧
    State.reset.dump.stack = [.zeros 4096] := by decide

/-- Words that are not zero are shown, and a run of zeros only indicated (R243). -/
theorem test_show_words :
    showWords vectorMemory false 1016 7 =
      [.zeros 1016, .word 1024 0x000A6948, .word 1028 0xAABBCCDD, .word 1032 0x80000001, .zeros 1036] := by decide

/-- A run that ended normally reports exit code 0 and, by default, no trace (R239, R240). -/
theorem test_report_of_exit : stepOn 0x0000028C (launched [])
    (fun t => t.report == some ⟨0, [], none, [], []⟩) = true := by decide

/-- A store of the byte an unlisted address holds leaves no cell. -/
theorem test_store_of_zero_is_canonical : writeByte [(5, 1#8), (7, 2#8)] 5 0#8 = [(7, 2#8)] := by decide

/-- A machine that has halted takes no step. -/
theorem test_halted_machine : faultOf ((launched []).halt) = some .halted := by decide

/-! ### Witnesses: the hypotheses of each obligation hold together (one theorem for each, in their order) -/

theorem witness_decode_of_encode : (Instr.srl 9 10 31).wf = true ∧ (Instr.sw 29 31 0x8000#16).wf = true := by decide

theorem witness_row : (⟨"JR", 0x00000008#32, 0xFC1FFFFF#32⟩ : OpcodeRow) ∈ opcodeTable := by decide

theorem witness_undefined_when_no_row :
    decodeWord true 0x0109FFC0#32 = .ok (.sll 9 31 31) ∧ decodeWord true 0x03E00008#32 = .ok (.jr 31) ∧
    decodeWord false 0x03FFFFC8#32 = .ok (.jr 31) ∧ (0x03FFFFC8#32 ^^^ 0x03E00008#32) &&& ~~~ (Instr.jr 31).fixedBits = 0#32 := by decide

theorem witness_ignored_fields :
    decodeWord true 0x01090019#32 = .ok (.mul 8 9) ∧
    (0x01090019#32 ^^^ 0x0109FFD9#32) &&& ~~~ (Instr.mul 8 9).ignoredBits = 0#32 := by decide

/-- Each clause of the statement on register 0. -/
theorem witness_register_zero :
    1#32 ≠ 0#32 ∧ State.reset.cfg.reg0Write = .discard ∧ (setCfg State.reset reg0Error).cfg.reg0Write = .error := by decide

/-- Each clause of the statements on `MemRead` and `MemWrite`, at the edge of its range. -/
theorem witness_memory_access :
    (65532#32).toNat + 1 > 65532 ∧ (65531#32).toNat + 1 ≤ 65532 ∧
    ((65531#32).toNat % 4 ≠ 0 ∧ State.reset.cfg.misalignedWord = .error) ∧
    ((65532#32).toNat % 4 = 0 ∧ (65532#32).toNat + 4 > 65532) ∧ ((65528#32).toNat % 4 = 0 ∧ (65528#32).toNat + 4 ≤ 65532) ∧
    ((setCfg State.reset bytewise).cfg.misalignedWord = .bytewise ∧ (65529#32).toNat + 4 > 65532 ∧ (65527#32).toNat + 4 ≤ 65532) := by
  decide

theorem witness_mixed_width : (65528#32).toNat % 4 = 0 ∧ (65528#32).toNat + 4 ≤ 65532 := by decide

/-- A write to a register, to register 0 under `discard`, and of 0 to register 0 under `error`. -/
theorem witness_writable :
    Writable State.reset 10 5#32 ∧ Writable State.reset 0 5#32 ∧ Writable (setCfg State.reset reg0Error) 0 0#32 :=
  ⟨.inl (by decide), .inr (.inr rfl), .inr (.inl rfl)⟩

theorem witness_add_sub :
    Writable (launched [(8, 5), (9, 0xFFFFFFFE)]) 10 3#32 ∧
    (3#32).toNat = (((launched [(8, 5), (9, 0xFFFFFFFE)]).getReg 8).toNat + ((launched [(8, 5), (9, 0xFFFFFFFE)]).getReg 9).toNat) % 2 ^ 32 ∧
    7#32 = BitVec.ofInt 32 (((launched [(8, 5), (9, 0xFFFFFFFE)]).getReg 8).toInt - ((launched [(8, 5), (9, 0xFFFFFFFE)]).getReg 9).toInt) :=
  ⟨.inl (by decide), by decide, by decide⟩

/-- `x[8]` = 0xFF00FF00 and `x[9]` = 0x0FF00FF0, with the four results of 95_test_vectors.md. -/
theorem witness_logical :
    let s := launched [(8, 0xFF00FF00), (9, 0x0FF00FF0)]
    Writable s 10 0x0F000F00#32 ∧
    (∀ k, k < 32 → (0x0F000F00#32).getLsbD k = ((s.getReg 8).getLsbD k && (s.getReg 9).getLsbD k)) ∧
    (∀ k, k < 32 → (0xFFF0FFF0#32).getLsbD k = ((s.getReg 8).getLsbD k || (s.getReg 9).getLsbD k)) ∧
    (∀ k, k < 32 → (0x000F000F#32).getLsbD k = !((s.getReg 8).getLsbD k || (s.getReg 9).getLsbD k)) ∧
    (∀ k, k < 32 → (0xF0F0F0F0#32).getLsbD k = ((s.getReg 8).getLsbD k ^^ (s.getReg 9).getLsbD k)) :=
  ⟨.inl (by decide), by decide, by decide, by decide, by decide⟩

theorem witness_shifts :
    let s := launched [(9, 0x80000001)]
    31 < 32 ∧ Writable s 10 0x80000000#32 ∧ (0x80000000#32).toNat = (s.getReg 9).toNat * 2 ^ 31 % 2 ^ 32 ∧
    (1#32).toNat = (s.getReg 9).toNat / 2 ^ 31 :=
  ⟨by decide, .inl (by decide), by decide, by decide⟩

theorem witness_div :
    let s := launched [(8, 0x80000000), (9, 1)]
    s.getReg 9 ≠ 0#32 ∧ ¬ ((s.getReg 8).toInt = -2 ^ 31 ∧ (s.getReg 9).toInt = -1) := by decide

theorem witness_at_div : AtInstr ((launched [(8, 5)]).withFetchWord 32 0x0109001B) (.div 8 9) ∧ (launched [(8, 5)]).getReg 9 = 0#32 :=
  ⟨⟨rfl, by decide, rfl⟩, by decide⟩

/-- Each setting of `DIV_OVERFLOW`. -/
theorem witness_div_overflow :
    let s := launched [(8, 0x80000000), (9, 0xFFFFFFFF)]
    (s.getReg 8).toInt = -2 ^ 31 ∧ (s.getReg 9).toInt = -1 ∧ s.cfg.divOverflow = .fault ∧
    (setCfg s (divOverflowIs .wrap)).cfg.divOverflow = .wrap ∧ (setCfg s (divOverflowIs .error)).cfg.divOverflow = .error := by decide

theorem witness_moves : Writable { State.reset with hi := 5#32, lo := 6#32 } 10 5#32 ∧ Writable { State.reset with hi := 5#32, lo := 6#32 } 10 6#32 :=
  ⟨.inl (by decide), .inl (by decide)⟩

theorem witness_hi_lo :
    exec (.add 8 9 10) State.reset = .next (State.reset.setReg 10 (State.reset.getReg 8 + State.reset.getReg 9)) ∧
    (∀ rs rt, Instr.add 8 9 10 ≠ .mul rs rt ∧ Instr.add 8 9 10 ≠ .div rs rt) ∧ (∀ rd, Instr.add 8 9 10 ≠ .mfhi rd) ∧
    (∀ rd, Instr.add 8 9 10 ≠ .mflo rd) :=
  ⟨rfl, fun _ _ => ⟨by simp, by simp⟩, fun _ => by simp, fun _ => by simp⟩

theorem witness_addi :
    0xFFFF8000#32 = BitVec.ofInt 32 ((State.reset.getReg 8).toInt + (0x8000#16).toInt) ∧ Writable State.reset 9 0xFFFF8000#32 :=
  ⟨by decide, .inl (by decide)⟩

/-- `x[8]` = 0xFFFF0000 and the immediate 0x8001. -/
theorem witness_logical_immediates :
    let s := launched [(8, 0xFFFF0001)]
    Writable s 9 1#32 ∧
    (∀ k, k < 32 → (0x00000001#32).getLsbD k = ((s.getReg 8).getLsbD k && (decide (k < 16) && (0x8001#16).getLsbD k))) ∧
    (∀ k, k < 32 → (0xFFFF8001#32).getLsbD k = ((s.getReg 8).getLsbD k || (decide (k < 16) && (0x8001#16).getLsbD k))) ∧
    (∀ k, k < 32 → (0xFFFF8000#32).getLsbD k = ((s.getReg 8).getLsbD k ^^ (decide (k < 16) && (0x8001#16).getLsbD k))) :=
  ⟨.inl (by decide), by decide, by decide, by decide⟩

/-- A branch that wraps: `pc` 8 and offset -3 (95_test_vectors.md section 2.7), taken and not taken on each sign. -/
theorem witness_branches :
    0xFFFFFFFC#32 = BitVec.ofInt 32 ((launchedAt 8 []).pc.toNat + 4 * (0xFFFD#16).toInt) ∧
    ((launched [(8, 0x80000000)]).getReg 8).toInt = -2 ^ 31 ∧ ((launched [(8, 0x7FFFFFFF)]).getReg 8).toInt = 2 ^ 31 - 1 := by decide

theorem witness_lbu :
    let s := withVectors [(9, 1032)]
    1028#32 = BitVec.ofInt 32 ((s.getReg 9).toInt + 4 * (0xFFFF#16).toInt) ∧ (1028#32).toNat < 65532 ∧
    (0xDD#32).toNat = (readByte s.mem (1028#32).toNat).toNat ∧ Writable s 8 0xDD#32 :=
  ⟨by decide, by decide, by decide, .inl (by decide)⟩

/-- An aligned load, and a `bytewise` one. -/
theorem witness_lw :
    let s := withVectors [(9, 1032)]
    let u := setCfg (withVectors [(9, 1026)]) bytewise
    (1028#32 = BitVec.ofInt 32 ((s.getReg 9).toInt + 4 * (0xFFFF#16).toInt) ∧ (1028#32).toNat + 4 ≤ 65532 ∧ (1028#32).toNat % 4 = 0 ∧
      (0xAABBCCDD#32).toNat = littleEndian s.mem (1028#32).toNat) ∧
    (1026#32 = BitVec.ofInt 32 ((u.getReg 9).toInt + 4 * (0#16).toInt) ∧ (1026#32).toNat + 4 ≤ 65532 ∧ u.cfg.misalignedWord = .bytewise ∧
      (0xCCDD000A#32).toNat = littleEndian u.mem (1026#32).toNat) ∧
    Writable s 8 0xAABBCCDD#32 :=
  ⟨by decide, by decide, .inl (by decide)⟩

theorem witness_stores :
    let s := launched [(9, 65528)]
    65528#32 = BitVec.ofInt 32 ((s.getReg 9).toInt + 4 * (0#16).toInt) ∧ (65528#32).toNat < 65532 ∧ (65528#32).toNat + 4 ≤ 65532 ∧
    (65528#32).toNat % 4 = 0 := by decide

/-- Each case of an access outside memory: `LBU`, `SB` at 65532, `LW`, `SW` at 65532. -/
theorem witness_outside_memory :
    let s := launched [(9, 65532)]
    AtInstr (s.withFetchWord 32 0x91280000) (.lbu 9 8 0#16) ∧ AtInstr (s.withFetchWord 32 0xA1280000) (.sb 9 8 0#16) ∧
    AtInstr (s.withFetchWord 32 0x8D280000) (.lw 9 8 0#16) ∧ AtInstr (s.withFetchWord 32 0xAD280000) (.sw 9 8 0#16) ∧
    65532#32 = BitVec.ofInt 32 ((s.getReg 9).toInt + 4 * (0#16).toInt) ∧ 65532 ≤ (65532#32).toNat ∧ (65532#32).toNat % 4 = 0 ∧
    65532 < (65532#32).toNat + 4 :=
  ⟨⟨rfl, by decide, rfl⟩, ⟨rfl, by decide, rfl⟩, ⟨rfl, by decide, rfl⟩, ⟨rfl, by decide, rfl⟩, by decide, by decide, by decide, by decide⟩

/-- A string that runs to the last byte of memory without a zero byte, and an address past memory. -/
theorem witness_unterminated_string :
    let s := State.withFetchWord { launched [(4, 65531)] with mem := [(65531, 0x41#8)] } 32 0x0000010C
    AtInstr s .pstr ∧ ∀ a, (s.getReg 4).toNat ≤ a → a < 65532 → readByte s.mem a ≠ 0#8 := by
  refine ⟨⟨rfl, by decide, rfl⟩, fun a h1 h2 => ?_⟩
  have h1 : 65531 ≤ a := h1
  obtain rfl : a = 65531 := by omega
  decide

/-- Misaligned, in memory and past it. -/
theorem witness_misaligned :
    let s := launched [(9, 65529)]
    AtInstr (s.withFetchWord 32 0x8D280000) (.lw 9 8 0#16) ∧ AtInstr (s.withFetchWord 32 0xAD280000) (.sw 9 8 0#16) ∧
    65529#32 = BitVec.ofInt 32 ((s.getReg 9).toInt + 4 * (0#16).toInt) ∧ (65529#32).toNat % 4 ≠ 0 ∧ s.cfg.misalignedWord = .error :=
  ⟨⟨rfl, by decide, rfl⟩, ⟨rfl, by decide, rfl⟩, by decide, by decide, by decide⟩

/-- Every clause of the statement on `REG0_WRITE = error` but the loads': one state that meets them all. -/
theorem witness_register_zero_error :
    let s := setCfg { launched [(8, 3), (9, 1)] with hi := 1#32, lo := 1#32 } reg0Error
    s.cfg.reg0Write = .error ∧ s.getReg 8 + s.getReg 9 ≠ 0#32 ∧ s.getReg 8 ≠ s.getReg 9 ∧ s.getReg 8 &&& s.getReg 9 ≠ 0#32 ∧
    s.getReg 8 ||| s.getReg 9 ≠ 0#32 ∧ s.getReg 8 ||| s.getReg 9 ≠ 0xFFFFFFFF#32 ∧ s.getReg 9 <<< 31 ≠ 0#32 ∧
    s.getReg 9 >>> 0 ≠ 0#32 ∧ s.hi ≠ 0#32 ∧ s.lo ≠ 0#32 ∧ s.getReg 8 + sgnExt 1#16 ≠ 0#32 ∧ s.getReg 8 &&& zeroExt 1#16 ≠ 0#32 ∧
    s.getReg 8 ||| zeroExt 1#16 ≠ 0#32 ∧ s.getReg 8 ≠ zeroExt 1#16 := by decide

/-- The loads' clauses of the same statement, aligned and `bytewise`. -/
theorem witness_register_zero_error_loads :
    let s := setCfg (withVectors []) reg0Error
    (s.effectiveAddress 28 1#16).toNat < 65532 ∧ readByte s.mem (s.effectiveAddress 28 1#16).toNat ≠ 0#8 ∧
    (s.effectiveAddress 28 1#16).toNat % 4 = 0 ∧ (s.effectiveAddress 28 1#16).toNat + 4 ≤ 65532 ∧
    readWord s.mem (s.effectiveAddress 28 1#16).toNat ≠ 0#32 ∧
    (let u := setCfg (setCfg (withVectors [(9, 1026)]) reg0Error) bytewise
     u.cfg.reg0Write = .error ∧ u.cfg.misalignedWord = .bytewise ∧ (u.effectiveAddress 9 0#16).toNat % 4 ≠ 0 ∧
     (u.effectiveAddress 9 0#16).toNat + 4 ≤ 65532 ∧ readWord u.mem (u.effectiveAddress 9 0#16).toNat ≠ 0#32) := by decide

theorem witness_jump_target : (0xF37B2B78#32).toNat = (0xFFFACADE#32).toNat / 2 ^ 28 * 2 ^ 28 + 4 * (0xDECADE#26).toNat := by decide

theorem witness_return :
    ∃ t, AtInstr ((launchedAt 4 []).withFetchWord 32 0x0C000040) (.jal 64) ∧ step ((launchedAt 4 []).withFetchWord 32 0x0C000040) = .next t ∧
      t.getReg 31 = 8#32 :=
  ⟨_, ⟨rfl, by decide, rfl⟩, rfl, by decide⟩

/-- The string `i`, newline of 95_test_vectors.md, and the empty string at 1027. -/
theorem witness_print_string :
    let s := withVectors [(4, 1025)]
    1025 = (s.getReg 4).toNat ∧ 1025 + 2 < 65532 ∧ readByte s.mem (1025 + 2) = 0#8 ∧ (∀ k, k < 2 → readByte s.mem (1025 + k) ≠ 0#8) := by
  decide

/-- Both cases of `RCH`. -/
theorem witness_read_character : ({ State.reset with stdin := [0xFF#8] }).stdin = 0xFF#8 :: [] ∧ State.reset.stdin = [] := by decide

theorem witness_tracing_flag : Instr.add 8 9 10 ≠ .stra ∧ Instr.add 8 9 10 ≠ .notr ∧ ∃ t, exec (.add 8 9 10) State.reset = .next t :=
  ⟨by decide, by decide, _, rfl⟩

theorem witness_step :
    let s := State.reset.withFetchWord 32 0x24080001
    s.status = .running ∧ s.Invariants ∧
    decodeBytes s.cfg.strictFixedFields [readByte s.mem s.pc.toNat, readByte s.mem (s.pc.toNat + 1), readByte s.mem (s.pc.toNat + 2),
      readByte s.mem (s.pc.toNat + 3)] = .ok (.addi 0 8 1#16, []) :=
  ⟨rfl, by decide, rfl⟩

theorem witness_finish_step :
    State.reset.status = .running ∧ State.reset.Invariants ∧ ¬ (launchedAt 65532 []).Invariants ∧
    (launchedAt 65532 []).status = .running := by decide

/-- Both causes of the statement on undefined words. -/
theorem witness_undefined :
    let s := State.reset.withFetchWord 32 0xFC000000
    s.status = .running ∧ s.Invariants ∧ s.cfg.strictFixedFields = true ∧ s.fetchWord = 0xFC000000#32 ∧
    decodeWord s.cfg.strictFixedFields s.fetchWord = .error (.undefinedOp 63#6) :=
  ⟨rfl, by decide, rfl, by decide, rfl⟩

theorem witness_undefined_matches_no_row : ∀ r ∈ opcodeTable, ¬ (0xFC000000#32 &&& r.mask = r.pattern) := by decide

theorem witness_halted : State.reset.halt.status ≠ .running ∧ (State.reset.raise .loadError).status ≠ .running := by decide

/-- A branch not taken at the last instruction address. -/
theorem witness_branch_not_taken_at_the_end :
    ∃ t, AtInstr ((launchedAt 65528 []).withFetchWord 32 0x1D000005) (.bgtz 8 5#16) ∧
      step ((launchedAt 65528 []).withFetchWord 32 0x1D000005) = .next t ∧ t.pc = 65528#32 + 4#32 ∧
      t.status = .error .invariantViolated :=
  ⟨_, ⟨rfl, by decide, rfl⟩, rfl, by decide, by decide⟩

/-- A step of an instruction that is no transfer, at the first and at the last instruction address. -/
theorem witness_non_transfer :
    (∃ t, AtInstr (State.reset.withFetchWord 32 0x24080001) (.addi 0 8 1#16) ∧ step (State.reset.withFetchWord 32 0x24080001) = .next t) ∧
    (∃ t, AtInstr ((launchedAt 65528 []).withFetchWord 32 0x24080001) (.addi 0 8 1#16) ∧
      step ((launchedAt 65528 []).withFetchWord 32 0x24080001) = .next t ∧ t.status = .error .invariantViolated) ∧
    (∃ t, AtInstr ((launchedAt 65528 []).withFetchWord 32 0x0000028C) .exit ∧
      step ((launchedAt 65528 []).withFetchWord 32 0x0000028C) = .next t ∧ t.status = .exited) ∧
    (Instr.addi 0 8 1#16).isTransfer = false ∧ Instr.exit.isTransfer = false :=
  ⟨⟨_, ⟨rfl, by decide, rfl⟩, rfl⟩, ⟨_, ⟨rfl, by decide, rfl⟩, rfl, by decide⟩, ⟨_, ⟨rfl, by decide, rfl⟩, rfl, by decide⟩,
    by decide, by decide⟩

/-- A store that changes a byte. -/
theorem witness_store :
    let s := (launched [(31, 8)]).withFetchWord 32 0xAFBFFFFF
    ∃ t, AtInstr s (.sw 29 31 0xFFFF#16) ∧ step s = .next t ∧ readByte t.mem 4092 ≠ readByte s.mem 4092 ∧
      wordAccessError s.cfg.misalignedWord (s.effectiveAddress 29 0xFFFF#16) = none :=
  ⟨_, ⟨rfl, by decide, rfl⟩, rfl, by decide, by decide⟩

/-- Output changes at `PSTR` and `PCH`, input at `RCH`. -/
theorem witness_streams :
    (∃ t, step ((launched [(4, 121)]).withFetchWord 32 0x000002CC) = .next t ∧ t.stdout = [121#8]) ∧
    (∃ t, step (State.withFetchWord { launched [] with stdin := [0x78#8] } 32 0x0000030C) = .next t ∧ t.stdin = []) :=
  ⟨⟨_, rfl, by decide⟩, ⟨_, rfl, by decide⟩⟩

theorem witness_tracing :
    EqualButTracing (State.reset.withFetchWord 32 0x24080001) { State.reset.withFetchWord 32 0x24080001 with tracing := false, trace := [] } ∧
    ∃ t, step (State.reset.withFetchWord 32 0x24080001) = .next t :=
  ⟨⟨rfl, rfl, ⟨rfl, rfl⟩, rfl, ⟨rfl, rfl⟩, ⟨rfl, rfl⟩, rfl, rfl⟩, _, rfl⟩

/-- Tracing on and the machine going on, `EXIT`, and tracing off. -/
theorem witness_trace :
    (∃ t, AtInstr (State.reset.withFetchWord 32 0x24080001) (.addi 0 8 1#16) ∧ step (State.reset.withFetchWord 32 0x24080001) = .next t ∧
      t.tracing = true ∧ t.status = .running) ∧
    (∃ t, AtInstr (State.reset.withFetchWord 32 0x0000028C) .exit ∧ step (State.reset.withFetchWord 32 0x0000028C) = .next t ∧
      t.tracing = true) ∧
    (∃ t, AtInstr (State.withFetchWord { State.reset with tracing := false } 32 0x24080001) (.addi 0 8 1#16) ∧
      step (State.withFetchWord { State.reset with tracing := false } 32 0x24080001) = .next t ∧ t.tracing = false) :=
  ⟨⟨_, ⟨rfl, by decide, rfl⟩, rfl, by decide, by decide⟩, ⟨_, ⟨rfl, by decide, rfl⟩, rfl, by decide⟩,
    ⟨_, ⟨rfl, by decide, rfl⟩, rfl, by decide⟩⟩

theorem witness_legal_parameters : defaultConfig.Legal := by decide

/-- A sound state that steps to a running one. -/
theorem witness_sound_step :
    let s := State.reset.withFetchWord 32 0x24080001
    s.Sound ∧ ∃ t, step s = .next t ∧ t.status = .running :=
  ⟨⟨by decide, by decide, by decide, fun _ => by decide⟩, _, rfl, by decide⟩

/-- A machine whose `DIV_OVERFLOW` is not `fault`, and a running state whose step has no result. -/
theorem witness_never_stuck :
    let s := (launched [(8, 0x80000000), (9, 0xFFFFFFFF)]).withFetchWord 32 0x0109001B
    (setCfg s (divOverflowIs .wrap)).cfg.divOverflow ≠ .fault ∧ s.status = .running ∧ ∀ t, step s ≠ .next t :=
  ⟨by decide, by decide, fun t h => by cases h⟩

theorem witness_load :
    BofAcceptable vmTest0 ∧ (fileHeader vmTest0).stackBottom.toInt < defaultConfig.maxStackHeight ∧
    0 ≤ (fileHeader vmTest0).textStart.toInt := by decide

/-- The bytes of a header with these five numbers, and nothing after it. -/
def headerBytes (h : Header) : List Byte :=
  bofMagic ++ [h.textStart, h.textLength, h.dataStart, h.dataLength, h.stackBottom].flatMap
    (fun w => [byteOfWord w 0, byteOfWord w 1, byteOfWord w 2, byteOfWord w 3])

/-- Each cause the statement on the loader lists, each at the edge of its range where it has one. -/
theorem witness_bad_files :
    (0x43#8 :: vmTest0.tail).take 4 ≠ [0x42#8, 0x4F#8, 0x46#8, 0x00#8] ∧
    (vmTest0.take 35).length < 24 + (fileHeader (vmTest0.take 35)).textLength.toNat + (fileHeader (vmTest0.take 35)).dataLength.toNat ∧
    (fileHeader (headerBytes ⟨0, 0, 1026, 0, 4096⟩)).dataStart.toNat % 4 ≠ 0 ∧
    (fileHeader (headerBytes ⟨0, 0, 1024, 0, 4097⟩)).stackBottom.toNat % 4 ≠ 0 ∧
    (fileHeader (headerBytes ⟨0, 0, 1024, 0, 1024⟩)).stackBottom.toInt ≤ (fileHeader (headerBytes ⟨0, 0, 1024, 0, 1024⟩)).dataStart.toInt ∧
    (fileHeader (headerBytes ⟨2, 0, 1024, 0, 4096⟩)).textStart.toNat % 4 ≠ 0 ∧
    (fileHeader (headerBytes ⟨1024, 0, 1024, 0, 4096⟩)).dataStart.toInt ≤ (fileHeader (headerBytes ⟨1024, 0, 1024, 0, 4096⟩)).textStart.toInt ∧
    (fileHeader (headerBytes ⟨0, 2, 1024, 0, 4096⟩)).textLength.toNat % 4 ≠ 0 ∧
    (fileHeader (headerBytes ⟨0, 0xFFFFFFFC, 1024, 0, 4096⟩)).textLength.toInt < 0 ∧
    (fileHeader (headerBytes ⟨0, 0, 1024, 0xFFFFFFFF, 4096⟩)).dataLength.toInt < 0 ∧
    (fileHeader (headerBytes ⟨0, 1028, 1024, 0, 4096⟩)).dataStart.toInt < (fileHeader (headerBytes ⟨0, 1028, 1024, 0, 4096⟩)).textLength.toInt ∧
    65532 < (fileHeader (headerBytes ⟨0, 0, 1024, 64509, 4096⟩)).dataStart.toInt + (fileHeader (headerBytes ⟨0, 0, 1024, 64509, 4096⟩)).dataLength.toInt := by
  decide

end Sys2Proof.Tests
end

section
/-! Numbers of the operand forms (R11): a concatenation by its parts' numbers, and the jump target from it. -/

namespace Sys2Proof.Machine

/-- `BitVec.toNat_append` as a sum: the low part lies below bit `n`, so the `|||` there has no common bits. -/
theorem toNat_append_eq_add {m n : Nat} (x : BitVec m) (y : BitVec n) :
    (x ++ y).toNat = x.toNat * 2 ^ n + y.toNat := by
  rw [BitVec.toNat_append, ← Nat.shiftLeft_add_eq_or_of_lt y.isLt, Nat.shiftLeft_eq]

/-- Four bits from bit 28 reach the top of the word, so the modulus in `BitVec.extractLsb'_toNat` does nothing. -/
theorem toNat_high_four_bits (p : Word) : (p.extractLsb' 28 4).toNat = p.toNat / 2 ^ 28 := by
  have hp : p.toNat / 2 ^ 28 < 2 ^ 4 := Nat.div_lt_of_lt_mul p.isLt
  rw [BitVec.extractLsb'_toNat, Nat.shiftRight_eq_div_pow, Nat.mod_eq_of_lt hp]

/-- R11 by numbers: the high four bits of `p` keep their weight, and `a` counts words. -/
theorem formAddress_toNat (p : Word) (a : BitVec 26) :
    (formAddress p a).toNat = p.toNat / 2 ^ 28 * 2 ^ 28 + 4 * a.toNat := by
  calc (formAddress p a).toNat
      = (p.toNat / 2 ^ 28 * 2 ^ 26 + a.toNat) * 2 ^ 2 + (0#2).toNat := by
        rw [formAddress, toNat_append_eq_add, toNat_append_eq_add, toNat_high_four_bits]
    _ = p.toNat / 2 ^ 28 * 2 ^ 28 + 4 * a.toNat := by
        rw [BitVec.toNat_zero]; omega

/-- Settles O8: the numbers of the three concatenated parts, and the source's example by evaluation. -/
theorem formAddressConcatenates : Obligations.FormAddressConcatenates :=
  ⟨formAddress_toNat, by decide⟩

end Sys2Proof.Machine
end

section
/-! R35, R25: a halted machine makes no step, and `pc` stays at its advance unless a transfer writes it. -/

namespace Sys2Proof.Machine

open Sys2Proof.Claims

/-- Settles O45: the guard of `State.cycle` on the status. -/
theorem haltedMachineTakesNoStep : Obligations.HaltedMachineTakesNoStep :=
  fun _ hs => if_neg hs

/-- A next state from an instruction at `pc` is the end of that instruction's own execution. -/
theorem exec_of_step_at {s t : State} {i : Instr} (hat : AtInstr s i) (h : step s = .next t) :
    ∃ u, exec i s.advancePc = .next u ∧ t = u.finishStep s.pc i s.tracing := by
  obtain ⟨-, hinv, hfetch⟩ := hat
  rcases step_cases h with ⟨-, hbroken, -⟩ | ⟨-, -, ⟨e, he⟩, -⟩ | ⟨-, -, j, u, hj, hu, ht⟩
  · exact absurd hinv hbroken
  · rw [hfetch] at he; cases he
  · rw [hfetch] at hj; cases hj; exact ⟨u, hu, ht⟩

/-- Of the shapes of a next state only `setPc` moves `pc`, and it belongs to the transfers (R25). -/
theorem exec_pc_of_not_transfer {i : Instr} {s t : State} (hi : i.isTransfer = false) (h : exec i s = .next t) :
    t.pc = s.pc := by
  rcases exec_cases i s with ⟨_, e⟩ | ⟨_, _, -, -, -, -, e⟩ | ⟨_, hj, -⟩ | ⟨_, _, rfl, -⟩ | ⟨_, _, _, _, -, e⟩ |
    ⟨_, _, _, -, -, e⟩ | ⟨_, _, _, -, -, e⟩ | ⟨_, _, -, e⟩ | ⟨_, -, e⟩ | ⟨-, e⟩ | ⟨_, -, e⟩ | ⟨_, _, -, -, e⟩
  case inr.inr.inl => rw [hi] at hj; cases hj
  case inr.inr.inr.inl => cases hi
  all_goals rw [e] at h; cases h <;> simp

/-- Settles O46: the meaning keeps the advanced `pc`, and so does the end of the step. -/
theorem onlyTransfersWritePc : Obligations.OnlyTransfersWritePc := by
  intro s t i hat hi hstep
  obtain ⟨u, hu, rfl⟩ := exec_of_step_at hat hstep
  rw [State.finishStep_pc, exec_pc_of_not_transfer hi hu, State.advancePc_pc]

end Sys2Proof.Machine
end

section
/-! R27, R28: `HI` and `LO` are written by `MUL` and `DIV` alone and read by `MFHI` and `MFLO` alone. Both claims come from one
fact: a meaning started with other values in `HI` and `LO` does the same, whatever they are. -/

namespace Sys2Proof.Machine

open Sys2Proof.Claims
open Host (Outcome)

/-! ### Setting `HI` and `LO` before an operation or after it -/

section
variable (s : State) (h l : Word)

theorem State.setHiLo_setReg (r : Reg) (v : Word) : (s.setHiLo h l).setReg r v = (s.setReg r v).setHiLo h l := by
  unfold setReg
  split_ifs
  · rfl
  · rw [setHiLo_cfg]; cases s.cfg.reg0Write <;> rfl
  · rfl

theorem State.setHiLo_branchIf (c : Bool) (o : BitVec 16) :
    (s.setHiLo h l).branchIf c o = (s.branchIf c o).setHiLo h l := by
  cases c <;> rfl

theorem State.setHiLo_memWriteByte (a : Word) (v : Byte) :
    (s.setHiLo h l).memWriteByte a v = (s.memWriteByte a v).setHiLo h l := by
  unfold memWriteByte
  cases byteAccessError a <;> rfl

theorem State.setHiLo_memWriteWord (a : Word) (v : Word) :
    (s.setHiLo h l).memWriteWord a v = (s.memWriteWord a v).setHiLo h l := by
  unfold memWriteWord
  rw [setHiLo_cfg]
  cases wordAccessError s.cfg.misalignedWord a <;> rfl

end

/-! ### Meanings with a case split of their own -/

section
variable {s t : State} {rs rt : Reg} {o : BitVec 16} (h l : Word)

theorem execLbu_setHiLo (hx : execLbu rs rt o s = .next t) :
    execLbu rs rt o (s.setHiLo h l) = .next (t.setHiLo h l) := by
  have hread : (s.setHiLo h l).memReadByte ((s.setHiLo h l).effectiveAddress rs o) =
    s.memReadByte (s.effectiveAddress rs o) := rfl
  unfold execLbu at hx ⊢
  rw [hread]
  cases hm : s.memReadByte (s.effectiveAddress rs o) with
  | error k => rw [hm] at hx; cases hx; rfl
  | ok b => rw [hm] at hx; cases hx; exact congrArg Outcome.next (s.setHiLo_setReg ..)

theorem execLw_setHiLo (hx : execLw rs rt o s = .next t) :
    execLw rs rt o (s.setHiLo h l) = .next (t.setHiLo h l) := by
  have hread : (s.setHiLo h l).memReadWord ((s.setHiLo h l).effectiveAddress rs o) =
    s.memReadWord (s.effectiveAddress rs o) := rfl
  unfold execLw at hx ⊢
  rw [hread]
  cases hm : s.memReadWord (s.effectiveAddress rs o) with
  | error k => rw [hm] at hx; cases hx; rfl
  | ok w => rw [hm] at hx; cases hx; exact congrArg Outcome.next (s.setHiLo_setReg ..)

theorem execPstr_setHiLo (hx : execPstr s = .next t) : execPstr (s.setHiLo h l) = .next (t.setHiLo h l) := by
  have hstring : (s.setHiLo h l).stringAt ((s.setHiLo h l).getReg regA0) = s.stringAt (s.getReg regA0) := rfl
  unfold execPstr at hx ⊢
  rw [hstring]
  cases hb : s.stringAt (s.getReg regA0) with
  | none => rw [hb] at hx; cases hx; rfl
  | some bs => rw [hb] at hx; cases hx; exact congrArg Outcome.next ((s.output bs).setHiLo_setReg ..)

/-- `DIV` overwrites `HI` and `LO`, or it is an error halt, which keeps them. -/
theorem execDiv_setHiLo (hx : execDiv rs rt s = .next t) :
    execDiv rs rt (s.setHiLo h l) = .next t ∨
    (SameHiLo s t ∧ execDiv rs rt (s.setHiLo h l) = .next (t.setHiLo h l)) := by
  by_cases hzero : s.getReg rt = 0#32
  · simp only [execDiv, State.setHiLo_getReg, hzero, ↓reduceIte] at hx ⊢
    cases hx; exact .inr ⟨⟨rfl, rfl⟩, rfl⟩
  by_cases hover : divOverflows (s.getReg rs) (s.getReg rt) = true
  · simp only [execDiv, State.setHiLo_getReg, State.setHiLo_cfg, hzero, hover, ↓reduceIte] at hx ⊢
    cases hc : s.cfg.divOverflow with
    | fault => rw [hc] at hx; cases hx
    | wrap => rw [hc] at hx; cases hx; exact .inl rfl
    | error => rw [hc] at hx; cases hx; exact .inr ⟨⟨rfl, rfl⟩, rfl⟩
  · simp only [execDiv, State.setHiLo_getReg, hzero, hover, ↓reduceIte] at hx ⊢
    cases hx; exact .inl rfl

end

/-! ### All meanings -/

/-- Of the shapes of a next state only `setHiLo` moves `HI` or `LO`, and it belongs to `MUL` and `DIV` (R27, R28). -/
theorem exec_sameHiLo {i : Instr} {s t : State} (hi : ∀ rs rt, i ≠ .mul rs rt ∧ i ≠ .div rs rt)
    (hx : exec i s = .next t) : SameHiLo s t := by
  rcases exec_cases i s with ⟨_, e⟩ | ⟨_, _, -, -, -, -, e⟩ | ⟨_, -, e⟩ | ⟨_, _, -, e⟩ | ⟨rs, rt, _, _, hj, -⟩ |
    ⟨_, _, _, -, -, e⟩ | ⟨_, _, _, -, -, e⟩ | ⟨_, _, -, e⟩ | ⟨_, -, e⟩ | ⟨-, e⟩ | ⟨_, -, e⟩ | ⟨_, _, -, -, e⟩
  case inr.inr.inr.inr.inl => exact (hj.elim (hi rs rt).1 (hi rs rt).2).elim
  all_goals rw [e] at hx; cases hx <;> simp [SameHiLo]

/-- A meaning that does not write `HI` and `LO` and does not read what was changed there does the same, and leaves them as it found
them. -/
theorem exec_setHiLo_of_not_writer {i : Instr} {s t : State} {h l : Word} (hi : ∀ rs rt, i ≠ .mul rs rt ∧ i ≠ .div rs rt)
    (hhi : ∀ rd, i = .mfhi rd → h = s.hi) (hlo : ∀ rd, i = .mflo rd → l = s.lo) (hx : exec i s = .next t) :
    exec i (s.setHiLo h l) = .next (t.setHiLo h l) := by
  cases i with
  | mul rs rt => exact absurd rfl (hi rs rt).1
  | div rs rt => exact absurd rfl (hi rs rt).2
  | mfhi rd => obtain rfl := hhi rd rfl; cases hx; exact congrArg Outcome.next (s.setHiLo_setReg ..)
  | mflo rd => obtain rfl := hlo rd rfl; cases hx; exact congrArg Outcome.next (s.setHiLo_setReg ..)
  | lbu => exact execLbu_setHiLo h l hx
  | lw => exact execLw_setHiLo h l hx
  | pstr => exact execPstr_setHiLo h l hx
  | sb => cases hx; exact congrArg Outcome.next (s.setHiLo_memWriteByte ..)
  | sw => cases hx; exact congrArg Outcome.next (s.setHiLo_memWriteWord ..)
  | pch => cases hx; exact congrArg Outcome.next ((s.output _).setHiLo_setReg ..)
  | rch => cases hx; exact congrArg Outcome.next (s.consumeInput.setHiLo_setReg ..)
  | beq | bne | bgez | bgtz | blez | bltz => cases hx; exact congrArg Outcome.next (s.setHiLo_branchIf ..)
  | add | sub | and | bor | nor | xor | sll | srl | addi | andi | bori | xori =>
    cases hx; exact congrArg Outcome.next (s.setHiLo_setReg ..)
  | jr | jmp | jal | exit | stra | notr => cases hx; rfl

/-- The same for every meaning: `MUL` and `DIV` overwrite what was changed. -/
theorem exec_setHiLo {i : Instr} {s t : State} {h l : Word}
    (hhi : ∀ rd, i = .mfhi rd → h = s.hi) (hlo : ∀ rd, i = .mflo rd → l = s.lo) (hx : exec i s = .next t) :
    exec i (s.setHiLo h l) = .next t ∨ (SameHiLo s t ∧ exec i (s.setHiLo h l) = .next (t.setHiLo h l)) := by
  cases i with
  | mul => cases hx; exact .inl rfl
  | div => exact execDiv_setHiLo h l hx
  | _ => exact .inr ⟨exec_sameHiLo (by simp) hx, exec_setHiLo_of_not_writer (by simp) hhi hlo hx⟩

/-! ### The claims: one of the two words is set, the other keeps its value -/

/-- Settles O21: `exec_setHiLo` with `LO` as it was. -/
theorem hiIsWrittenByMulDivAndReadByMfhi : Obligations.HiIsWrittenByMulDivAndReadByMfhi := by
  intro i s t hx
  refine ⟨fun hi => (exec_sameHiLo hi hx).1, fun hi h => ?_⟩
  have hread := exec_setHiLo (h := h) (fun rd e => absurd e (hi rd)) (fun _ _ => rfl) hx
  rcases hread with e | ⟨⟨-, hlo⟩, e⟩
  · exact ⟨t, e, rfl⟩
  · exact ⟨_, e, by rw [← hlo]; rfl⟩

/-- Settles O22: `exec_setHiLo` with `HI` as it was. -/
theorem loIsWrittenByMulDivAndReadByMflo : Obligations.LoIsWrittenByMulDivAndReadByMflo := by
  intro i s t hx
  refine ⟨fun hi => (exec_sameHiLo hi hx).2, fun hi l => ?_⟩
  have hread := exec_setHiLo (l := l) (fun _ _ => rfl) (fun rd e => absurd e (hi rd)) hx
  rcases hread with e | ⟨⟨hhi, -⟩, e⟩
  · exact ⟨t, e, rfl⟩
  · exact ⟨_, e, by rw [← hhi]; rfl⟩

end Sys2Proof.Machine
end

section
/-! R53, R57, R62: of everything a meaning can do, only the byte write of `SB` and the word write of `SW` touch memory. -/

namespace Sys2Proof.Machine

/-- A word write keeps every byte outside the four it writes (R53). -/
theorem readByte_writeWord_outside (m : Memory) {a y : Nat} (v : Word) (h : ¬ (a ≤ y ∧ y < a + 4)) :
    readByte (writeWord m a v) y = readByte m y := by
  rw [readByte_writeWord, if_neg (by omega), if_neg (by omega), if_neg (by omega), if_neg (by omega)]

/-- Of the shapes of a next state only the two `setMem` replace memory, and each belongs to one store (R57, R62). -/
theorem exec_changed_byte {i : Instr} {s t : State} {a : Nat} (hx : exec i s = .next t)
    (ha : readByte t.mem a ≠ readByte s.mem a) :
    (∃ rs rt o, i = .sb rs rt o ∧ a = (s.effectiveAddress rs o).toNat) ∨
    (∃ rs rt o, i = .sw rs rt o ∧ (s.effectiveAddress rs o).toNat ≤ a ∧ a < (s.effectiveAddress rs o).toNat + 4) := by
  rcases exec_cases i s with ⟨_, e⟩ | ⟨_, _, -, -, -, -, e⟩ | ⟨_, -, e⟩ | ⟨_, _, -, e⟩ | ⟨_, _, _, _, -, e⟩ |
    ⟨rs, rt, o, hsb, -, e⟩ | ⟨rs, rt, o, hsw, -, e⟩ | ⟨_, _, -, e⟩ | ⟨_, -, e⟩ | ⟨-, e⟩ | ⟨_, -, e⟩ | ⟨_, _, -, -, e⟩
  case inr.inr.inr.inr.inr.inl =>
    rw [e] at hx; cases hx
    exact .inl ⟨rs, rt, o, hsb, by_contra fun hne => ha (readByte_writeByte_ne s.mem _ a _ hne)⟩
  case inr.inr.inr.inr.inr.inr.inl =>
    rw [e] at hx; cases hx
    exact .inr ⟨rs, rt, o, hsw, by_contra fun hout => ha (readByte_writeWord_outside s.mem _ hout)⟩
  all_goals rw [e] at hx; cases hx <;> simp at ha

/-- Settles O48: the advance of `pc` and the end of the step keep memory, and the effective address does not read `pc`. -/
theorem onlyStoresChangeMemory : Obligations.OnlyStoresChangeMemory := by
  intro s t i hat hstep a ha
  obtain ⟨u, hu, rfl⟩ := exec_of_step_at hat hstep
  rw [State.finishStep_mem] at ha
  exact exec_changed_byte (s := s.advancePc) hu ha

end Sys2Proof.Machine
end

section
/-! R87: the fields marked `-` do not matter. Two words that differ in ignored fields only agree in every other field, and an
instruction is read from those fields alone; where it has no ignored field, the two words are one. -/

namespace Sys2Proof

/-! ### Fields of two words that differ only in the bits of `m` -/

section
variable {w w' m : Word}

/-- A field that has no bit of `m` is the same in both words. -/
theorem extractLsb'_eq_of_xor_masked {k n : Nat} (h : (w ^^^ w') &&& ~~~ m = 0#32) (hm : m.extractLsb' k n = 0#n) :
    w'.extractLsb' k n = w.extractLsb' k n := by
  apply BitVec.eq_of_getLsbD_eq; intro j hj
  have hclear : m.getLsbD (k + j) = false := by simpa [hj] using congrArg (BitVec.getLsbD · j) hm
  have hbit : w.getLsbD (k + j) = w'.getLsbD (k + j) := by
    by_cases hk : k + j < 32
    · simpa [hclear, hk, -BitVec.getLsbD_eq_getElem] using congrArg (BitVec.getLsbD · (k + j)) h
    · simp [BitVec.getLsbD_of_ge _ _ (Nat.le_of_not_lt hk)]
  rw [BitVec.getLsbD_extractLsb', BitVec.getLsbD_extractLsb', hbit]

theorem eq_of_xor_masked_zero (h : (w ^^^ w') &&& ~~~ 0#32 = 0#32) : w = w' := by
  rwa [BitVec.not_zero, BitVec.and_allOnes, BitVec.xor_eq_zero_iff] at h

variable (h : (w ^^^ w') &&& ~~~ m = 0#32)
include h

theorem opField_eq_of_xor_masked (hm : opField m = 0#6) : opField w' = opField w := extractLsb'_eq_of_xor_masked h hm
theorem rsField_eq_of_xor_masked (hm : rsField m = 0#5) : rsField w' = rsField w := extractLsb'_eq_of_xor_masked h hm
theorem rtField_eq_of_xor_masked (hm : rtField m = 0#5) : rtField w' = rtField w := extractLsb'_eq_of_xor_masked h hm
theorem rdField_eq_of_xor_masked (hm : rdField m = 0#5) : rdField w' = rdField w := extractLsb'_eq_of_xor_masked h hm
theorem shiftField_eq_of_xor_masked (hm : shiftField m = 0#5) : shiftField w' = shiftField w :=
  extractLsb'_eq_of_xor_masked h hm
theorem funcField_eq_of_xor_masked (hm : funcField m = 0#6) : funcField w' = funcField w :=
  extractLsb'_eq_of_xor_masked h hm

end

/-! ### The ignored bits of an instruction -/

theorem opField_ignoredBits (i : Instr) : opField i.ignoredBits = 0#6 := by
  unfold Instr.ignoredBits
  split <;> decide

theorem funcField_ignoredBits (i : Instr) : funcField i.ignoredBits = 0#6 := by
  unfold Instr.ignoredBits
  split <;> decide

/-! ### What a decoded word can be -/

section
variable {strict : Bool} {w w' : Word} {i : Instr}

/-- Table S: a system call uses its whole word. -/
theorem decodeSyscall_ok {code : BitVec 20} (h : decodeSyscall code = .ok i) : i.wf = true ∧ i.ignoredBits = 0#32 := by
  unfold decodeSyscall at h
  split at h <;> cases h <;> exact ⟨rfl, rfl⟩

/-- Of the tables of R88 only those of `op = 0` have ignored fields or a shift amount. -/
theorem decodeWord_ok (h : decodeWord strict w = .ok i) :
    (opField w = 0#6 ∧ decodeRegister strict w = .ok i) ∨ (i.wf = true ∧ i.ignoredBits = 0#32) := by
  unfold decodeWord at h
  split at h
  case h_1 hop => exact .inl ⟨hop, h⟩
  case h_7 | h_8 | h_9 | h_10 => -- BGEZ, BGTZ, BLEZ, BLTZ
    obtain ⟨rfl, -⟩ := withFixed_ok.mp h; exact .inr ⟨rfl, rfl⟩
  all_goals cases h <;> exact .inr ⟨rfl, rfl⟩

theorem decodeWord_of_op_zero (h : opField w = 0#6) : decodeWord strict w = decodeRegister strict w := by
  simp [decodeWord, h]

/-- A decoded shift amount has 5 bits (R125). -/
theorem wf_of_decodeRegister (h : decodeRegister strict w = .ok i) : i.wf = true := by
  unfold decodeRegister at h
  split at h
  case h_11 | h_12 => -- SLL, SRL
    cases h; exact shiftEncodable_iff.mpr (shiftField w).isLt
  case h_13 => -- JR
    obtain ⟨rfl, -⟩ := withFixed_ok.mp h; rfl
  case h_14 => -- a system call
    exact (decodeSyscall_ok h).1
  all_goals cases h <;> rfl

/-- Table R reads its operands from the fields that are not ignored. -/
theorem decodeRegister_of_xor_ignored (h : decodeRegister strict w = .ok i)
    (hx : (w ^^^ w') &&& ~~~ i.ignoredBits = 0#32) : decodeRegister strict w' = .ok i := by
  have hfunc := funcField_eq_of_xor_masked hx (funcField_ignoredBits i)
  unfold decodeRegister at h ⊢
  rw [hfunc]
  split at h
  case h_13 => -- JR
    obtain ⟨rfl, -⟩ := withFixed_ok.mp h; rwa [← eq_of_xor_masked_zero hx]
  case h_14 => -- a system call
    rw [(decodeSyscall_ok h).2] at hx; rwa [← eq_of_xor_masked_zero hx]
  case h_15 => cases h -- undefined
  all_goals cases h; dsimp only [Instr.ignoredBits] at hx
  case h_3.refl | h_4.refl => -- MUL, DIV
    rw [rsField_eq_of_xor_masked hx (by decide), rtField_eq_of_xor_masked hx (by decide)]
  case h_5.refl | h_6.refl => -- MFHI, MFLO
    rw [rdField_eq_of_xor_masked hx (by decide)]
  case h_11.refl | h_12.refl => -- SLL, SRL
    rw [rtField_eq_of_xor_masked hx (by decide), rdField_eq_of_xor_masked hx (by decide),
      shiftField_eq_of_xor_masked hx (by decide)]
  -- ADD, SUB, AND, BOR, NOR, XOR
  all_goals
    rw [rsField_eq_of_xor_masked hx (by decide), rtField_eq_of_xor_masked hx (by decide),
      rdField_eq_of_xor_masked hx (by decide)]

/-- A decoded word and any word that differs from it in ignored fields only are one instruction (R87). -/
theorem decodeWord_of_xor_ignored (h : decodeWord strict w = .ok i)
    (hx : (w ^^^ w') &&& ~~~ i.ignoredBits = 0#32) : decodeWord strict w' = .ok i := by
  rcases decodeWord_ok h with ⟨hop, hreg⟩ | ⟨-, hnone⟩
  · have hop' : opField w' = 0#6 := (opField_eq_of_xor_masked hx (opField_ignoredBits i)).trans hop
    rw [decodeWord_of_op_zero hop']
    exact decodeRegister_of_xor_ignored hreg hx
  · rw [hnone] at hx
    rwa [← eq_of_xor_masked_zero hx]

theorem wf_of_decodeWord (h : decodeWord strict w = .ok i) : i.wf = true := by
  rcases decodeWord_ok h with ⟨-, hreg⟩ | ⟨hwf, -⟩
  · exact wf_of_decodeRegister hreg
  · exact hwf

end

/-- Settles O5: `op`, `func` and the operands all lie outside the ignored fields. -/
theorem ignoredFieldsDoNotMatter : Obligations.IgnoredFieldsDoNotMatter :=
  fun _ _ _ _ h => ⟨wf_of_decodeWord h, decodeWord_of_xor_ignored h⟩

end Sys2Proof
end

section
/-! R21, R115 to R120: an allowed register write changes its register alone, and the logical instructions and the moves from `HI` and
`LO` are such a write of their result. -/

namespace Sys2Proof.Machine

open Sys2Proof.Claims

/-- A register write that is no error halt is seen by reads of its own register only, and not by reads of register 0 (R21). -/
theorem writesOnly_setReg {s : State} {rd : Reg} {v : Word} (h : Writable s rd v) : WritesOnly s (s.setReg rd v) rd v := by
  have hother : ∀ r, r ≠ rd ∨ r = 0 → (s.setReg rd v).getReg r = s.getReg r := by
    rintro r (hne | rfl)
    · exact s.setReg_getReg_ne rd v r hne
    · simp
  have hstatus : SameStatus s (s.setReg rd v) := ⟨s.setReg_status_ok rd v h, s.setReg_stderr_ok rd v h⟩
  exact ⟨s.setReg_getReg_self rd v, hother, by simp, by simp [SameHiLo], by simp [SameMem], hstatus, by simp [SameIo],
    by simp [SameVm]⟩

/-- Settles O14: a word is the one whose 32 bits are the operation of the sources' bits, and that word is written. -/
theorem logicalInstructionsWorkBitByBit : Obligations.LogicalInstructionsWorkBitByBit := by
  intro s rs rt rd v hwritable
  refine ⟨fun hbits => ?and, fun hbits => ?bor, fun hbits => ?nor, fun hbits => ?xor⟩
  case and =>
    obtain rfl : v = s.getReg rs &&& s.getReg rt := BitVec.eq_of_getLsbD_eq fun k hk => by
      rw [hbits k hk, BitVec.getLsbD_and]
    exact ⟨_, rfl, writesOnly_setReg hwritable⟩
  case bor =>
    obtain rfl : v = s.getReg rs ||| s.getReg rt := BitVec.eq_of_getLsbD_eq fun k hk => by
      rw [hbits k hk, BitVec.getLsbD_or]
    exact ⟨_, rfl, writesOnly_setReg hwritable⟩
  case nor =>
    obtain rfl : v = ~~~(s.getReg rs ||| s.getReg rt) := BitVec.eq_of_getLsbD_eq fun k hk => by
      rw [hbits k hk, BitVec.getLsbD_not, BitVec.getLsbD_or, decide_eq_true hk, Bool.true_and]
    exact ⟨_, rfl, writesOnly_setReg hwritable⟩
  case xor =>
    obtain rfl : v = s.getReg rs ^^^ s.getReg rt := BitVec.eq_of_getLsbD_eq fun k hk => by
      rw [hbits k hk, BitVec.getLsbD_xor]
    exact ⟨_, rfl, writesOnly_setReg hwritable⟩

/-- Settles O20: both meanings are the register write of the special register's value. -/
theorem movesFromHiAndLo : Obligations.MovesFromHiAndLo :=
  fun _ _ => ⟨fun h => ⟨_, rfl, writesOnly_setReg h⟩, fun h => ⟨_, rfl, writesOnly_setReg h⟩⟩

end Sys2Proof.Machine
end

section
/-! R142 to R144: the logical immediates work on the word whose low half is the immediate and whose high half is clear (R10), and are a
register write of their result. -/

namespace Sys2Proof.Machine

open Sys2Proof.Claims

/-- R10 bit by bit: from bit 16 on the extension is clear, and the immediate has no bits there. -/
theorem getLsbD_zeroExt (i : BitVec 16) {k : Nat} (hk : k < 32) : (zeroExt i).getLsbD k = (decide (k < 16) && i.getLsbD k) := by
  have hext : (zeroExt i).getLsbD k = i.getLsbD k := by
    rw [zeroExt, BitVec.getLsbD_setWidth, decide_eq_true hk, Bool.true_and]
  by_cases hlow : k < 16
  · rw [hext, decide_eq_true hlow, Bool.true_and]
  · rw [hext, decide_eq_false hlow, Bool.false_and, BitVec.getLsbD_of_ge i k (Nat.le_of_not_lt hlow)]

/-- Settles O25: the word whose bits are given is the operation on the zero-extended immediate, and that word is written. -/
theorem logicalImmediatesZeroExtend : Obligations.LogicalImmediatesZeroExtend := by
  intro s rs rt i v hwritable
  refine ⟨fun hbits => ?andi, fun hbits => ?bori, fun hbits => ?xori⟩
  case andi =>
    obtain rfl : v = s.getReg rs &&& zeroExt i := BitVec.eq_of_getLsbD_eq fun k hk => by
      rw [hbits k hk, BitVec.getLsbD_and, getLsbD_zeroExt i hk]
    exact ⟨_, rfl, writesOnly_setReg hwritable⟩
  case bori =>
    obtain rfl : v = s.getReg rs ||| zeroExt i := BitVec.eq_of_getLsbD_eq fun k hk => by
      rw [hbits k hk, BitVec.getLsbD_or, getLsbD_zeroExt i hk]
    exact ⟨_, rfl, writesOnly_setReg hwritable⟩
  case xori =>
    obtain rfl : v = s.getReg rs ^^^ zeroExt i := BitVec.eq_of_getLsbD_eq fun k hk => by
      rw [hbits k hk, BitVec.getLsbD_xor, getLsbD_zeroExt i hk]
    exact ⟨_, rfl, writesOnly_setReg hwritable⟩

end Sys2Proof.Machine
end

section
/-! R170 to R172: the jumps put `formAddress` of the advanced `pc` into `pc`; `JAL` is, before that, a write of register 31. -/

namespace Sys2Proof.Machine

open Sys2Proof.Claims

/-- A word is determined by its number, and R11 gives the number of `formAddress`. -/
theorem eq_formAddress {p target : Word} {a : BitVec 26}
    (h : target.toNat = p.toNat / 2 ^ 28 * 2 ^ 28 + 4 * a.toNat) : target = formAddress p a :=
  BitVec.eq_of_toNat_eq (h.trans (formAddress_toNat p a).symm)

theorem jumpsOnly_setPc (s : State) (v : Word) : JumpsOnly s (s.setPc v) v :=
  ⟨rfl, fun _ => rfl, ⟨rfl, rfl⟩, fun _ => rfl, ⟨rfl, rfl⟩, ⟨rfl, rfl⟩, rfl, rfl, rfl, rfl⟩

/-- Settles O35: the target is `formAddress`, and what `JAL` keeps is what its link write keeps, since its jump writes `pc` alone. -/
theorem jumpsFormTheirTarget : Obligations.JumpsFormTheirTarget := by
  intro s a target htarget
  obtain rfl := eq_formAddress htarget
  refine ⟨⟨_, rfl, jumpsOnly_setPc s _⟩, ?jal⟩
  case jal =>
    have hra : regRa ≠ 0 := by decide
    obtain ⟨hlink, hother, -, hhilo, hmem, hstatus, hio, hvm⟩ :=
      writesOnly_setReg (s := s) (rd := regRa) (v := s.pc) (.inl hra)
    exact ⟨_, rfl, rfl, hlink hra, fun r hr => hother r (.inl hr), hhilo, hmem, hstatus, hio, hvm⟩

end Sys2Proof.Machine
end

section
/-! R31, R185, R186: of everything a meaning can do, only the switch of `STRA` and `NOTR` touches the tracing flag, and the switch touches
nothing else. -/

namespace Sys2Proof.Machine

open Sys2Proof.Claims

/-- The switch is seen in the tracing flag alone (R31). -/
theorem setTracing_frame (s : State) (b : Bool) :
    (s.setTracing b).trace = s.trace ∧ (s.setTracing b).header = s.header ∧ (s.setTracing b).cfg = s.cfg ∧
    (s.setTracing b).pc = s.pc ∧ SameRegs s (s.setTracing b) ∧ SameHiLo s (s.setTracing b) ∧ SameMem s (s.setTracing b) ∧
    SameStatus s (s.setTracing b) ∧ SameIo s (s.setTracing b) :=
  ⟨rfl, rfl, rfl, rfl, fun _ => rfl, ⟨rfl, rfl⟩, fun _ => rfl, ⟨rfl, rfl⟩, ⟨rfl, rfl⟩⟩

/-- Of the shapes of a next state only `setTracing` moves the flag, and it belongs to `STRA` and `NOTR` (R185, R186). -/
theorem exec_tracing_of_not_switch {i : Instr} {s t : State} (hstra : i ≠ .stra) (hnotr : i ≠ .notr)
    (hx : exec i s = .next t) : t.tracing = s.tracing := by
  rcases exec_cases i s with ⟨_, e⟩ | ⟨_, _, -, -, -, -, e⟩ | ⟨_, -, e⟩ | ⟨_, _, -, e⟩ | ⟨_, _, _, _, -, e⟩ |
    ⟨_, _, _, -, -, e⟩ | ⟨_, _, _, -, -, e⟩ | ⟨_, _, -, e⟩ | ⟨_, -, e⟩ | ⟨-, e⟩ | ⟨_, hswitch, -⟩ | ⟨_, _, -, -, e⟩
  case inr.inr.inr.inr.inr.inr.inr.inr.inr.inr.inl => exact (hswitch.elim hstra hnotr).elim
  all_goals rw [e] at hx; cases hx <;> simp

/-- Settles O41: both meanings are the switch, and every other next state keeps the flag. -/
theorem onlyStraAndNotrSwitchTracing : Obligations.OnlyStraAndNotrSwitchTracing :=
  ⟨fun s => ⟨_, rfl, rfl, setTracing_frame s true⟩, fun s => ⟨_, rfl, rfl, setTracing_frame s false⟩,
    fun _ _ _ hstra hnotr hx => exec_tracing_of_not_switch hstra hnotr hx⟩

end Sys2Proof.Machine
end

section
/-! R202, R208: an instruction whose meaning is an error halt. The end of its step finds a machine that has halted, so it makes no check
and writes only the trace. -/

namespace Sys2Proof.Machine

open Sys2Proof.Claims

/-- The invariant check is made only on a state that did not itself halt (R238). -/
@[simp] theorem State.checkInvariants_raise (s : State) (k : ErrorKind) : (s.raise k).checkInvariants = s.raise k :=
  if_neg fun h => nomatch h.1

/-- The converse of `exec_of_step_at`: what the instruction at `pc` does is what the step does. -/
theorem step_of_exec_at {s t : State} {i : Instr} (hat : AtInstr s i) (hx : exec i s.advancePc = .next t) :
    step s = .next (t.finishStep s.pc i s.tracing) := by
  obtain ⟨hrun, hinv, hfetch⟩ := hat
  rw [step_of_fetch hrun hinv hfetch, State.executeAt, hx]

/-- A step whose instruction is an error halt advances `pc`, halts, and keeps everything else but the trace (R208). -/
theorem step_of_exec_raise {s : State} {i : Instr} {k : ErrorKind} (hat : AtInstr s i)
    (hx : exec i s.advancePc = .next (s.advancePc.raise k)) :
    ∃ t, step s = .next t ∧ t.status = .error k ∧ t.stderr = s.stderr ++ [k] ∧ t.pc = s.pc + 4#32 ∧ SameHiLo s t ∧
      SameRegs s t ∧ SameMem s t ∧ SameIo s t ∧ t.tracing = s.tracing ∧ t.header = s.header ∧ t.cfg = s.cfg :=
  ⟨_, step_of_exec_at hat hx, by simp [SameHiLo, SameRegs, SameMem, SameIo]⟩

/-- `DIV` looks at its divisor first, before `DIV_OVERFLOW` and before any write (R202). -/
theorem exec_div_of_zero {s : State} {rs rt : Reg} (hzero : s.getReg rt = 0#32) :
    exec (.div rs rt) s = .next (s.raise .divisionByZero) :=
  if_pos hzero

/-- Settles O18: the advance of `pc` leaves the divisor 0, so `DIV`'s meaning is the error halt. -/
theorem divisionByZeroIsAnErrorHalt : Obligations.DivisionByZeroIsAnErrorHalt := by
  intro s rs rt hat hzero
  have hadvanced : s.advancePc.getReg rt = 0#32 := hzero
  exact step_of_exec_raise hat (exec_div_of_zero hadvanced)

end Sys2Proof.Machine
end

section
/-! R81, R83: the decoder undoes the encoder, since each field of a packed word reads back as it was packed. -/

namespace Sys2Proof

section
variable (strict : Bool)

theorem decodeWord_packR (rs rt rd sh : BitVec 5) (fn : BitVec 6) :
    decodeWord strict (packR rs rt rd sh fn) = decodeRegister strict (packR rs rt rd sh fn) :=
  decodeWord_of_op_zero (opField_packR ..)

theorem decodeWord_packS (code : BitVec 20) : decodeWord strict (packS code) = decodeSyscall code := by
  rw [decodeWord_of_op_zero (opField_packS code)]
  simp [decodeRegister]

end

/-- Settles O1: the instruction's `op`, `func` or `code` picks its own arm of the decoder, and every operand is read from the field it
was packed into; a shift amount fits its field because the instruction is well-formed. -/
theorem decodeOfEncodeIsTheInstruction : Obligations.DecodeOfEncodeIsTheInstruction := by
  intro strict i hwf
  cases i with
  | sll rt rd sh | srl rt rd sh => simp [encode, decodeWord_packR, decodeRegister, toNat_shiftBits hwf]
  | exit | pstr | pch | rch | stra | notr => exact decodeWord_packS strict _
  | bgez | bgtz | blez | bltz => simp [encode, decodeWord, withFixed]
  | addi | andi | bori | xori | beq | bne | lbu | lw | sb | sw | jmp | jal => simp [encode, decodeWord]
  | jr => simp [encode, decodeWord_packR, decodeRegister, withFixed]
  | add | sub | mul | div | mfhi | mflo | and | bor | nor | xor => simp [encode, decodeWord_packR, decodeRegister]

/-- Settles O6: each word is evaluated by the decoder. -/
theorem exampleWordsDecode : Obligations.ExampleWordsDecode := by
  unfold Obligations.ExampleWordsDecode
  decide

end Sys2Proof
end

section
/-! R88: the decoder and the opcode table agree. A row's mask covers the fields the decoder tells its instruction by, so a word
matches a row exactly when it decodes to an instruction of that row. -/

namespace Sys2Proof

/-- The source's table has a row for every instruction. -/
theorem row_mem_opcodeTable (i : Instr) : i.row ∈ opcodeTable := by
  cases i <;> simp [opcodeTable, Instr.row]

/-- A field that a mask covers whole holds what the pattern holds there. -/
theorem extractLsb'_of_and_eq {w m p : Word} {k n : Nat} (h : w &&& m = p) (hm : m.extractLsb' k n = BitVec.allOnes n) :
    w.extractLsb' k n = p.extractLsb' k n := by
  rw [← h, BitVec.extractLsb'_and, hm, BitVec.and_allOnes]

theorem word_of_op_zero {w : Word} (h : opField w = 0#6) :
    w = packR (rsField w) (rtField w) (rdField w) (shiftField w) (funcField w) := by
  conv_lhs => rw [word_eq_packR w, h]
  rfl

section
open Laws.EncodesRow

theorem row_holds_of_decodeSyscall {code : BitVec 20} {i : Instr} (h : decodeSyscall code = .ok i) :
    i.row.holds (packS code) := by
  unfold decodeSyscall at h
  split at h <;> cases h
  exacts [exit, pstr, pch, rch, stra, notr]

theorem row_holds_of_decodeRegister {w : Word} {i : Instr} (hop : opField w = 0#6)
    (h : decodeRegister true w = .ok i) : i.row.holds w := by
  unfold decodeRegister at h
  split at h
  case h_13 hfunc => -- JR
    obtain ⟨rfl, hfixed⟩ := withFixed_ok.mp h
    obtain ⟨⟨hrt, hrd⟩, hsh⟩ : (rtField w = 0#5 ∧ rdField w = 0#5) ∧ shiftField w = 0#5 := by simpa using hfixed
    have hjr := jr (regOfBits (rsField w))
    simp only [Statement, encode, bitsOfReg_regOfBits] at hjr
    rwa [word_of_op_zero hop, hfunc, hrt, hrd, hsh]
  case h_14 hfunc => -- a system call
    have hw : w = packS (codeField w) := by
      conv_lhs => rw [word_eq_packS w, hop, hfunc]
      rfl
    rw [hw]
    exact row_holds_of_decodeSyscall h
  case h_15 => cases h -- undefined
  all_goals
    next hfunc =>
    cases h
    rw [word_of_op_zero hop, hfunc]
    exact packR_holds _ _ _ _ _ _ _ (by decide)

/-- A decoded word matches the row of its instruction (R88). -/
theorem row_holds_of_decodeWord {w : Word} {i : Instr} (h : decodeWord true w = .ok i) : i.row.holds w := by
  unfold decodeWord at h
  split at h
  case h_1 hop => exact row_holds_of_decodeRegister hop h
  case h_7 hop | h_8 hop | h_9 hop | h_10 hop => -- BGEZ, BGTZ, BLEZ, BLTZ
    obtain ⟨rfl, hfixed⟩ := withFixed_ok.mp h
    rw [word_eq_packI w, hop, beq_iff_eq.mp (hfixed rfl)]
    exact packI_fixed_holds _ _ _ _ _ _ (by decide)
  case h_16 hop | h_17 hop => -- JMP, JAL
    cases h
    rw [word_eq_packJ w, hop]
    exact packJ_holds _ _ _ _ (by decide)
  case h_18 => cases h -- undefined
  all_goals
    next hop =>
    cases h
    rw [word_eq_packI w, hop]
    exact packI_holds _ _ _ _ _ _ (by decide)

end

/-- The decoder tells an instruction by the fields its row's mask covers: `op`, with `func` where `op` is 0, and the fields the table
fixes (R83, R88). -/
theorem decodeWord_of_row_holds {w : Word} (j : Instr) (h : j.row.holds w) : ∃ i, decodeWord true w = .ok i ∧ i.row = j.row := by
  cases j
  all_goals
    dsimp only [Instr.row, OpcodeRow.holds] at h
    have hop := extractLsb'_of_and_eq (k := 26) (n := 6) h (by decide)
  case exit | pstr | pch | rch | stra | notr =>
    have hcode := extractLsb'_of_and_eq (k := 6) (n := 20) h (by decide)
    have hfunc := extractLsb'_of_and_eq (k := 0) (n := 6) h (by decide)
    simp [decodeWord, decodeRegister, decodeSyscall, opField, funcField, codeField, hop, hfunc, hcode, Instr.row]
  case jr =>
    have hrt := extractLsb'_of_and_eq (k := 16) (n := 5) h (by decide)
    have hrd := extractLsb'_of_and_eq (k := 11) (n := 5) h (by decide)
    have hshift := extractLsb'_of_and_eq (k := 6) (n := 5) h (by decide)
    have hfunc := extractLsb'_of_and_eq (k := 0) (n := 6) h (by decide)
    simp [decodeWord, decodeRegister, withFixed, opField, rtField, rdField, shiftField, funcField, hop, hrt, hrd,
      hshift, hfunc, Instr.row]
  case bgez | bgtz | blez | bltz =>
    have hrt := extractLsb'_of_and_eq (k := 16) (n := 5) h (by decide)
    simp [decodeWord, withFixed, opField, rtField, hop, hrt, Instr.row]
  case addi | andi | bori | xori | beq | bne | lbu | lw | sb | sw | jmp | jal =>
    simp [decodeWord, opField, hop, Instr.row]
  case add | sub | mul | div | mfhi | mflo | and | bor | nor | xor | sll | srl =>
    have hfunc := extractLsb'_of_and_eq (k := 0) (n := 6) h (by decide)
    simp [decodeWord, decodeRegister, opField, funcField, hop, hfunc, Instr.row]

/-- A row holds a word exactly when the word decodes to an instruction of the row (R88). -/
theorem row_holds_iff {w : Word} {r : OpcodeRow} (hr : r ∈ opcodeTable) :
    r.holds w ↔ ∃ i, decodeWord true w = .ok i ∧ i.row = r := by
  obtain ⟨j, -, rfl⟩ := List.mem_map.mp hr
  constructor
  · exact decodeWord_of_row_holds j
  · rintro ⟨i, hi, hrow⟩
    exact hrow ▸ row_holds_of_decodeWord hi

/-- Settles O2: `row_holds_iff`. -/
theorem wordIsAnInstructionWhenItMatchesItsRow : Obligations.WordIsAnInstructionWhenItMatchesItsRow :=
  fun _ _ hr => (row_holds_iff hr).symm

/-- Settles O3: two rows that hold one word are both the row of the one instruction it decodes to, and the table lists no row twice. -/
theorem opcodeRowsArePairwiseDisjoint : Obligations.OpcodeRowsArePairwiseDisjoint := by
  intro w
  have hnodup : opcodeTable.Nodup := by decide
  refine hnodup.imp_of_mem fun {r q} hr hq hne ⟨hrw, hqw⟩ => hne ?_
  obtain ⟨i, hi, rfl⟩ := (row_holds_iff hr).mp hrw
  obtain ⟨j, hj, rfl⟩ := (row_holds_iff hq).mp hqw
  rw [hi] at hj
  cases hj
  rfl

end Sys2Proof
end

section
/-! R89, R90: what the fixed fields decide. The strict setting rejects words by them; the lenient one does not look at them. -/

namespace Sys2Proof

@[simp] theorem withFixed_lenient (held : Bool) (i : Instr) : withFixed false held i = .ok i := rfl

/-- The word with the operands of `w` and another `rt` field differs from `w` in that field only. -/
theorem xor_packI_rt (w : Word) (rt : BitVec 5) :
    (w ^^^ packI (opField w) (rsField w) rt (immedField w)) &&& ~~~0x001F0000#32 = 0#32 := by
  apply BitVec.eq_of_getLsbD_eq; intro i hi
  simp only [packI, opField, rsField, immedField, BitVec.getLsbD_and, BitVec.getLsbD_xor, BitVec.getLsbD_append,
    BitVec.getLsbD_extractLsb']
  interval_cases i <;> simp

/-- The word with the `op`, `rs` and `func` of `w` and other fields between differs from `w` between them only. -/
theorem xor_packR_rs (w : Word) (rt rd sh : BitVec 5) (hop : opField w = 0#6) :
    (w ^^^ packR (rsField w) rt rd sh (funcField w)) &&& ~~~0x001FFFC0#32 = 0#32 := by
  rw [packR, ← hop]
  apply BitVec.eq_of_getLsbD_eq; intro i hi
  simp only [opField, rsField, funcField, BitVec.getLsbD_and, BitVec.getLsbD_xor, BitVec.getLsbD_append,
    BitVec.getLsbD_extractLsb']
  interval_cases i <;> simp

/-- What the lenient decoder makes of an instruction that has fixed fields: it has no ignored ones, its own word differs from the decoded
one in the fixed fields only, and every word that does so is the instruction (R89). -/
def FixedFieldsIgnored (w : Word) (i : Instr) : Prop :=
  i.ignoredBits = 0#32 ∧ (w ^^^ encode i) &&& ~~~i.fixedBits = 0#32 ∧
    ∀ w', (w ^^^ w') &&& ~~~i.fixedBits = 0#32 → decodeWord false w' = .ok i

/-- Of table R only `JR` has fixed fields. -/
theorem decodeRegister_lenient {w : Word} {i : Instr} (hop : opField w = 0#6) (h : decodeRegister false w = .ok i) :
    (i.fixedBits = 0#32 ∧ decodeRegister true w = .ok i) ∨ FixedFieldsIgnored w i := by
  unfold decodeRegister at h ⊢
  split at h
  case h_13 hfunc => -- JR
    rw [withFixed_lenient] at h
    cases h
    refine .inr ⟨rfl, ?_, fun w' hx => ?_⟩
    · simpa only [encode, Instr.fixedBits, bitsOfReg_regOfBits, hfunc] using xor_packR_rs w 0#5 0#5 0#5 hop
    · dsimp only [Instr.fixedBits] at hx
      have hop' := (opField_eq_of_xor_masked hx (by decide)).trans hop
      have hfunc' := (funcField_eq_of_xor_masked hx (by decide)).trans hfunc
      simp [decodeWord, decodeRegister, hop', hfunc', rsField_eq_of_xor_masked hx (by decide)]
  case h_14 => -- a system call
    refine .inl ⟨?_, h⟩
    unfold decodeSyscall at h
    split at h <;> cases h <;> rfl
  case h_15 => cases h -- undefined
  all_goals cases h; exact .inl ⟨rfl, rfl⟩

/-- Where an instruction has no fixed field the setting does not matter to its words; where it has some, the lenient decoder ignores
them. -/
theorem decodeWord_lenient {w : Word} {i : Instr} (h : decodeWord false w = .ok i) :
    (i.fixedBits = 0#32 ∧ decodeWord true w = .ok i) ∨ FixedFieldsIgnored w i := by
  unfold decodeWord at h ⊢
  split at h
  case h_1 hop => exact decodeRegister_lenient hop h
  case h_7 hop | h_8 hop | h_9 hop | h_10 hop => -- BGEZ, BGTZ, BLEZ, BLTZ
    rw [withFixed_lenient] at h
    cases h
    refine .inr ⟨rfl, ?_, fun w' hx => ?_⟩
    · simpa only [encode, Instr.fixedBits, bitsOfReg_regOfBits, hop] using xor_packI_rt w _
    · dsimp only [Instr.fixedBits] at hx
      have hop' := (opField_eq_of_xor_masked hx (by decide)).trans hop
      have himmed : immedField w' = immedField w := extractLsb'_eq_of_xor_masked hx (by decide)
      simp [decodeWord, hop', rsField_eq_of_xor_masked hx (by decide), himmed]
  case h_18 => cases h -- undefined
  all_goals cases h; exact .inl ⟨rfl, rfl⟩

/-- The strict decoder only rejects words. -/
theorem decodeWord_lenient_of_strict {w : Word} {i : Instr} (h : decodeWord true w = .ok i) : decodeWord false w = .ok i := by
  unfold decodeWord at h ⊢
  split at h
  case h_1 =>
    unfold decodeRegister at h ⊢
    split at h
    case h_13 => obtain ⟨rfl, -⟩ := withFixed_ok.mp h; rfl -- JR
    all_goals exact h
  case h_7 | h_8 | h_9 | h_10 => obtain ⟨rfl, -⟩ := withFixed_ok.mp h; rfl -- BGEZ, BGTZ, BLEZ, BLTZ
  all_goals exact h

/-- Two words that differ in ignored and fixed fields only are the same instruction under the lenient setting. -/
theorem decodeWord_lenient_of_xor {w w' : Word} {i : Instr} (h : decodeWord false w = .ok i)
    (hx : (w ^^^ w') &&& ~~~(i.ignoredBits ||| i.fixedBits) = 0#32) : decodeWord false w' = .ok i := by
  rcases decodeWord_lenient h with ⟨hfixed, -⟩ | ⟨hignored, -, hsame⟩
  · rw [hfixed, BitVec.or_zero] at hx
    exact decodeWord_of_xor_ignored h hx
  · rw [hignored, BitVec.zero_or] at hx
    exact hsame w' hx

/-- A word is an instruction under the lenient setting exactly when a word that is it under the strict one differs in fixed fields only. -/
theorem decodeWord_lenient_iff (w : Word) (i : Instr) :
    decodeWord false w = .ok i ↔ ∃ v, decodeWord true v = .ok i ∧ (w ^^^ v) &&& ~~~i.fixedBits = 0#32 := by
  constructor
  · intro h
    rcases decodeWord_lenient h with ⟨-, hstrict⟩ | ⟨-, hx, -⟩
    · exact ⟨w, hstrict, by simp⟩
    · exact ⟨encode i, decodeOfEncodeIsTheInstruction true i (wf_of_decodeWord h), hx⟩
  · rintro ⟨v, hv, hx⟩
    refine decodeWord_lenient_of_xor (decodeWord_lenient_of_strict hv) ?_
    rw [BitVec.xor_comm, BitVec.not_or, BitVec.and_comm (~~~_), ← BitVec.and_assoc, hx, BitVec.zero_and]

/-- A word is undefined exactly when no row holds it: a decoded word matches its instruction's row, and a row's word is decoded (R90). -/
theorem decodeWord_error_iff (w : Word) : (∃ e, decodeWord true w = .error e) ↔ ∀ r ∈ opcodeTable, ¬ r.holds w := by
  constructor
  · rintro ⟨e, he⟩ r hr hholds
    obtain ⟨i, hi, -⟩ := (row_holds_iff hr).mp hholds
    rw [he] at hi
    cases hi
  · intro hnone
    cases hd : decodeWord true w with
    | error e => exact ⟨e, rfl⟩
    | ok i => exact absurd (row_holds_of_decodeWord hd) (hnone _ (row_mem_opcodeTable i))

/-- Settles O4: one lemma for each clause. -/
theorem wordIsUndefinedWhenItMatchesNoRow : Obligations.WordIsUndefinedWhenItMatchesNoRow :=
  ⟨decodeWord_error_iff, fun _ _ => decodeWord_lenient_of_strict, decodeWord_lenient_iff, fun _ _ _ => decodeWord_lenient_of_xor⟩

end Sys2Proof
end

section
/-! R31, R238, R240: no meaning and no check reads the tracing flag or the trace. A state with another flag and another trace therefore
runs alike, and only what is printed differs. -/

namespace Sys2Proof.Machine

open Sys2Proof.Claims
open Host (Outcome)

/-- The state with another tracing flag and another trace. -/
def State.withTrace (b : Bool) (l : List TraceItem) (s : State) : State := { s with tracing := b, trace := l }

theorem equalButTracing_withTrace (s : State) (b : Bool) (l : List TraceItem) : EqualButTracing s (s.withTrace b l) :=
  ⟨rfl, rfl, ⟨rfl, rfl⟩, rfl, ⟨rfl, rfl⟩, ⟨rfl, rfl⟩, rfl, rfl⟩

/-- Two states that differ at most in the flag and the trace are one state with two flags and two traces. -/
theorem eq_withTrace {s s' : State} (h : EqualButTracing s s') : s' = s.withTrace s'.tracing s'.trace := by
  obtain ⟨hregs, hpc, ⟨hhi, hlo⟩, hmem, ⟨hstatus, hstderr⟩, ⟨hstdin, hstdout⟩, hheader, hcfg⟩ := h
  cases s
  cases s'
  simp only [State.withTrace] at *
  simp only [hregs, hpc, hhi, hlo, hmem, hstatus, hstderr, hstdin, hstdout, hheader, hcfg]

section
variable (s : State) (b : Bool) (l : List TraceItem)

@[simp] theorem State.withTrace_cfg : (s.withTrace b l).cfg = s.cfg := rfl
@[simp] theorem State.withTrace_getReg (r : Reg) : (s.withTrace b l).getReg r = s.getReg r := rfl
@[simp] theorem State.withTrace_fetch : (s.withTrace b l).fetch = s.fetch := rfl

/-! ### Setting the flag and the trace before an operation or after it -/

theorem State.withTrace_setReg (r : Reg) (v : Word) : (s.withTrace b l).setReg r v = (s.setReg r v).withTrace b l := by
  unfold setReg
  split_ifs
  · rfl
  · rw [withTrace_cfg]; cases s.cfg.reg0Write <;> rfl
  · rfl

theorem State.withTrace_branchIf (c : Bool) (o : BitVec 16) :
    (s.withTrace b l).branchIf c o = (s.branchIf c o).withTrace b l := by
  cases c <;> rfl

theorem State.withTrace_memWriteByte (a : Word) (v : Byte) :
    (s.withTrace b l).memWriteByte a v = (s.memWriteByte a v).withTrace b l := by
  unfold memWriteByte
  cases byteAccessError a <;> rfl

theorem State.withTrace_memWriteWord (a : Word) (v : Word) :
    (s.withTrace b l).memWriteWord a v = (s.memWriteWord a v).withTrace b l := by
  unfold memWriteWord
  rw [withTrace_cfg]
  cases wordAccessError s.cfg.misalignedWord a <;> rfl

theorem State.withTrace_checkInvariants : (s.withTrace b l).checkInvariants = s.checkInvariants.withTrace b l := by
  unfold checkInvariants
  rw [apply_ite (State.withTrace b l)]
  rfl

/-! ### The meanings -/

/-- The outcome with a change made to its next state. -/
def mapNext (f : State → State) : Outcome State Fault Refusal → Outcome State Fault Refusal
  | .next t => .next (f t)
  | .fault e => .fault e
  | .refused r => .refused r

theorem execLbu_withTrace (rs rt : Reg) (o : BitVec 16) :
    execLbu rs rt o (s.withTrace b l) = mapNext (State.withTrace b l) (execLbu rs rt o s) := by
  have hread : (s.withTrace b l).memReadByte ((s.withTrace b l).effectiveAddress rs o) =
    s.memReadByte (s.effectiveAddress rs o) := rfl
  unfold execLbu
  rw [hread]
  cases s.memReadByte (s.effectiveAddress rs o) with
  | error k => rfl
  | ok v => exact congrArg Outcome.next (s.withTrace_setReg ..)

theorem execLw_withTrace (rs rt : Reg) (o : BitVec 16) :
    execLw rs rt o (s.withTrace b l) = mapNext (State.withTrace b l) (execLw rs rt o s) := by
  have hread : (s.withTrace b l).memReadWord ((s.withTrace b l).effectiveAddress rs o) =
    s.memReadWord (s.effectiveAddress rs o) := rfl
  unfold execLw
  rw [hread]
  cases s.memReadWord (s.effectiveAddress rs o) with
  | error k => rfl
  | ok v => exact congrArg Outcome.next (s.withTrace_setReg ..)

theorem execPstr_withTrace : execPstr (s.withTrace b l) = mapNext (State.withTrace b l) (execPstr s) := by
  have hstring : (s.withTrace b l).stringAt ((s.withTrace b l).getReg regA0) = s.stringAt (s.getReg regA0) := rfl
  unfold execPstr
  rw [hstring]
  cases s.stringAt (s.getReg regA0) with
  | none => rfl
  | some bs => exact congrArg Outcome.next ((s.output bs).withTrace_setReg ..)

theorem execDiv_withTrace (rs rt : Reg) :
    execDiv rs rt (s.withTrace b l) = mapNext (State.withTrace b l) (execDiv rs rt s) := by
  unfold execDiv
  dsimp only [State.withTrace_getReg, State.withTrace_cfg]
  split_ifs
  · rfl
  · cases s.cfg.divOverflow <;> rfl
  · rfl

/-- Every meaning but the switch itself does the same whatever the flag and the trace are, and leaves them as it found them. -/
theorem exec_withTrace {i : Instr} (hstra : i ≠ .stra) (hnotr : i ≠ .notr) :
    exec i (s.withTrace b l) = mapNext (State.withTrace b l) (exec i s) := by
  cases i with
  | stra => exact absurd rfl hstra
  | notr => exact absurd rfl hnotr
  | lbu => exact execLbu_withTrace ..
  | lw => exact execLw_withTrace ..
  | pstr => exact execPstr_withTrace ..
  | div => exact execDiv_withTrace ..
  | sb => exact congrArg Outcome.next (s.withTrace_memWriteByte ..)
  | sw => exact congrArg Outcome.next (s.withTrace_memWriteWord ..)
  | pch => exact congrArg Outcome.next ((s.output _).withTrace_setReg ..)
  | rch => exact congrArg Outcome.next (s.consumeInput.withTrace_setReg ..)
  | beq | bne | bgez | bgtz | blez | bltz => exact congrArg Outcome.next (s.withTrace_branchIf ..)
  | add | sub | mfhi | mflo | and | bor | nor | xor | sll | srl | addi | andi | bori | xori =>
    exact congrArg Outcome.next (s.withTrace_setReg ..)
  | jal => exact congrArg (fun u => Outcome.next (State.setPc _ u)) (s.withTrace_setReg ..)
  | mul | jr | jmp | exit => rfl

/-- Every meaning does the same but for the flag and the trace it leaves. -/
theorem exec_withTrace_next {i : Instr} {t : State} (h : exec i s = .next t) :
    ∃ b' l', exec i (s.withTrace b l) = .next (t.withTrace b' l') := by
  by_cases hstra : i = .stra
  · subst hstra; cases h; exact ⟨true, l, rfl⟩
  by_cases hnotr : i = .notr
  · subst hnotr; cases h; exact ⟨false, l, rfl⟩
  · exact ⟨b, l, by rw [exec_withTrace s b l hstra hnotr, h]; rfl⟩

/-! ### The step -/

/-- The end of a step finds the same invariants, so that only what it prints can differ. -/
theorem State.withTrace_finishStep (a : Word) (i : Instr) (before before' : Bool) :
    ∃ b' l', (s.withTrace b l).finishStep a i before' = (s.finishStep a i before).withTrace b' l' := by
  rw [finishStep_eq, withTrace_checkInvariants]
  exact ⟨b, _, rfl⟩

/-- A step does the same but for the flag and the trace it leaves. -/
theorem step_withTrace {t : State} (h : step s = .next t) :
    ∃ b' l', step (s.withTrace b l) = .next (t.withTrace b' l') := by
  rcases step_cases h with ⟨hrun, hinv, rfl⟩ | ⟨hrun, hinv, ⟨e, he⟩, rfl⟩ | ⟨hrun, hinv, i, u, hfetch, hexec, rfl⟩
  · exact ⟨b, l, (if_pos hrun).trans (if_neg hinv)⟩
  · refine ⟨b, l, (if_pos hrun).trans ((if_pos hinv).trans ?_)⟩
    rw [State.withTrace_fetch, he]
    rfl
  · obtain ⟨b₁, l₁, hexec'⟩ := exec_withTrace_next s.advancePc b l hexec
    obtain ⟨b₂, l₂, hfinish⟩ := u.withTrace_finishStep b₁ l₁ s.pc i s.tracing b
    exact ⟨b₂, l₂, (step_of_exec_at (s := s.withTrace b l) ⟨hrun, hinv, hfetch⟩ hexec').trans (congrArg _ hfinish)⟩

end

/-- Settles O51: the second state is the first with another flag and another trace, so it makes the first one's step. -/
theorem tracingDoesNotAffectTheProgram : Obligations.TracingDoesNotAffectTheProgram := by
  intro s s' t heq hstep
  rw [eq_withTrace heq]
  obtain ⟨b, l, hstep'⟩ := step_withTrace s s'.tracing s'.trace hstep
  exact ⟨_, hstep', equalButTracing_withTrace t b l⟩

end Sys2Proof.Machine
end

section
/-! R36, R203, R238: what every step keeps. A state a step leaves running has passed the check at the end of the step; everything else a
sound state has is kept by each operation. -/

namespace Sys2Proof.Machine

open Sys2Proof.Claims

/-! ### What the meanings keep -/

/-- Of the shapes of a next state only the two stores replace memory, and both write inside it. -/
theorem exec_mem_wf {i : Instr} {s t : State} (hwf : s.mem.wf = true) (hx : exec i s = .next t) : t.mem.wf = true := by
  rcases exec_cases i s with ⟨_, e⟩ | ⟨_, _, -, -, -, -, e⟩ | ⟨_, -, e⟩ | ⟨_, _, -, e⟩ | ⟨_, _, _, _, -, e⟩ |
    ⟨_, _, _, -, hin, e⟩ | ⟨_, _, _, -, hok, e⟩ | ⟨_, _, -, e⟩ | ⟨_, -, e⟩ | ⟨-, e⟩ | ⟨_, -, e⟩ | ⟨_, _, -, -, e⟩
  case inr.inr.inr.inr.inr.inl => rw [e] at hx; cases hx; exact writeByte_wf _ hwf hin
  case inr.inr.inr.inr.inr.inr.inl => rw [e] at hx; cases hx; exact writeWord_wf _ hwf (wordAccessError_none.mp hok).2
  all_goals rw [e] at hx; cases hx <;> simpa using hwf

/-- No meaning writes the stored register 0, the header, the parameters or the trace. -/
theorem exec_frame {i : Instr} {s t : State} (hx : exec i s = .next t) :
    t.regs[0] = s.regs[0] ∧ t.header = s.header ∧ t.cfg = s.cfg ∧ t.trace = s.trace := by
  rcases exec_cases i s with ⟨_, e⟩ | ⟨_, _, -, -, -, -, e⟩ | ⟨_, -, e⟩ | ⟨_, _, -, e⟩ | ⟨_, _, _, _, -, e⟩ |
    ⟨_, _, _, -, -, e⟩ | ⟨_, _, _, -, -, e⟩ | ⟨_, _, -, e⟩ | ⟨_, -, e⟩ | ⟨-, e⟩ | ⟨_, -, e⟩ | ⟨_, _, -, -, e⟩
  all_goals rw [e] at hx; cases hx <;> simp

/-! ### The end of a step -/

section
variable {s : State} {a : Word} {i : Instr} {b : Bool}

/-- The invariants speak of nothing that the end of a step changes. -/
theorem State.finishStep_invariants : (s.finishStep a i b).Invariants ↔ s.Invariants := by
  simp [State.Invariants]

/-- Only a state that meets the invariants is still running after the check (R203). -/
theorem State.invariants_of_checkInvariants (h : s.checkInvariants.status = .running) : s.Invariants := by
  rcases s.checkInvariants_cases with ⟨hor, e⟩ | ⟨-, -, e⟩
  · rw [e] at h
    exact hor.resolve_left (not_not.mpr h)
  · rw [e] at h
    cases h

end

/-! ### Every step -/

/-- A step leaves the machine running only through the check at its end. -/
theorem invariants_of_step_running {s t : State} (h : step s = .next t) (hrun : t.status = .running) : t.Invariants := by
  rcases step_cases h with ⟨-, -, rfl⟩ | ⟨-, -, -, rfl⟩ | ⟨-, -, i, u, -, -, rfl⟩
  · cases hrun
  · cases hrun
  · exact State.finishStep_invariants.mpr (State.invariants_of_checkInvariants hrun)

theorem step_mem_wf {s t : State} (hwf : s.mem.wf = true) (h : step s = .next t) : t.mem.wf = true := by
  rcases step_cases h with ⟨-, -, rfl⟩ | ⟨-, -, -, rfl⟩ | ⟨-, -, i, u, -, hu, rfl⟩
  · exact hwf
  · exact hwf
  · rw [State.finishStep_mem]
    exact exec_mem_wf (s := s.advancePc) hwf hu

/-- No step writes the stored register 0, the header or the parameters. -/
theorem step_frame {s t : State} (h : step s = .next t) :
    t.regs[0] = s.regs[0] ∧ t.header = s.header ∧ t.cfg = s.cfg := by
  rcases step_cases h with ⟨-, -, rfl⟩ | ⟨-, -, -, rfl⟩ | ⟨-, -, i, u, -, hu, rfl⟩
  · exact ⟨rfl, rfl, rfl⟩
  · exact ⟨rfl, rfl, rfl⟩
  · obtain ⟨hzero, hheader, hcfg, -⟩ := exec_frame hu
    simpa using ⟨hzero, hheader, hcfg⟩

/-- Settles O54: each part of a sound state is kept on its own, and the check at the end of the step gives the invariants. -/
theorem stepKeepsStatesSound : Obligations.StepKeepsStatesSound := by
  rintro s t ⟨hwf, hzero, hlegal, -⟩ hstep
  obtain ⟨hregs, -, hcfg⟩ := step_frame hstep
  exact ⟨step_mem_wf hwf hstep, hregs.trans hzero, hcfg ▸ hlegal, invariants_of_step_running hstep⟩

/-- Settles O56: V1 to V11 of the state after the step; the last word of memory that `pc` can hold is at 65528. -/
theorem runningStatesMeetTheInvariants : Obligations.RunningStatesMeetTheInvariants := by
  intro s t hstep hrun
  obtain ⟨hpc, hgp, hsp, hfp, hgp0, hlt, hle, hmax, -, hin, hzero⟩ := invariants_of_step_running hstep hrun
  simp only [bytesPerWord, memorySize] at *
  exact ⟨hpc, by omega, hgp, hsp, hfp, hgp0, hlt, hle, hmax, hzero⟩

/-- Settles O55: each part is evaluated at reset. -/
theorem resetIsSound : Obligations.ResetIsSound :=
  ⟨by decide, by decide, by decide, fun _ => by decide⟩

end Sys2Proof.Machine
end

section
/-! R10, R85, R152: the operand functions by their numbers. An immediate's offset is the word of `4 * signed16(immed)`, so that an effective
address or a branch target is the word of an integer sum. -/

namespace Sys2Proof.Machine

theorem sgnExt_eq_ofInt (i : BitVec 16) : sgnExt i = BitVec.ofInt 32 i.toInt := rfl

@[simp] theorem sgnExt_toInt (i : BitVec 16) : (sgnExt i).toInt = i.toInt :=
  BitVec.toInt_signExtend_of_le (by decide)

@[simp] theorem zeroExt_toNat (i : BitVec 16) : (zeroExt i).toNat = i.toNat :=
  BitVec.toNat_setWidth_of_le (by decide)

theorem formOffset_eq_ofInt (o : BitVec 16) : formOffset o = BitVec.ofInt 32 (4 * o.toInt) := by
  calc formOffset o
      = sgnExt o * BitVec.twoPow 32 2 := BitVec.shiftLeft_eq_mul_twoPow _ _
    _ = BitVec.ofInt 32 4 * BitVec.ofInt 32 o.toInt := by rw [sgnExt_eq_ofInt, mul_comm]; rfl
    _ = BitVec.ofInt 32 (4 * o.toInt) := (BitVec.ofInt_mul ..).symm

/-- Four times a 16-bit number fits a word, so that nothing wraps (R85). -/
theorem formOffset_toInt (o : BitVec 16) : (formOffset o).toInt = 4 * o.toInt := by
  have hlow : -2 ^ 15 ≤ o.toInt := BitVec.le_toInt o
  have hhigh : o.toInt < 2 ^ 15 := BitVec.toInt_lt
  rw [formOffset_eq_ofInt]
  exact BitVec.toInt_ofInt_eq_self (by decide) (by omega) (by omega)

/-- Settles O7: the extensions keep the number, signed or unsigned, and the offset is four times it. -/
theorem immediateFunctionsHaveTheirValues : Obligations.ImmediateFunctionsHaveTheirValues :=
  fun i => ⟨sgnExt_toInt i, zeroExt_toNat i, formOffset_toInt i, by decide, by decide⟩

/-- R152 by numbers. -/
theorem State.effectiveAddress_eq_ofInt (s : State) (rs : Reg) (o : BitVec 16) :
    s.effectiveAddress rs o = BitVec.ofInt 32 ((s.getReg rs).toInt + 4 * o.toInt) := by
  rw [effectiveAddress, formOffset_eq_ofInt, BitVec.ofInt_add, BitVec.ofInt_toInt]

/-- R145 by numbers. -/
theorem State.branchTarget_eq_ofInt (s : State) (o : BitVec 16) :
    s.branchTarget o = BitVec.ofInt 32 (s.pc.toNat + 4 * o.toInt) := by
  rw [branchTarget, formOffset_eq_ofInt, BitVec.ofInt_add, BitVec.ofInt_natCast, BitVec.ofNat_toNat, BitVec.setWidth_eq]

end Sys2Proof.Machine
end

section
/-! R21, R208: register 0 and the error halt. -/

namespace Sys2Proof.Machine

open Sys2Proof.Claims

/-- The error halt changes the status and standard error alone (R208). -/
theorem errorHaltOf_raise (s : State) (k : ErrorKind) : ErrorHaltOf s (s.raise k) k :=
  ⟨rfl, rfl, rfl, fun _ => rfl, ⟨rfl, rfl⟩, fun _ => rfl, ⟨rfl, rfl⟩, rfl, rfl, rfl, rfl⟩

/-- R21 under `REG0_WRITE = error`. -/
theorem setReg_zero_of_error {s : State} {v : Word} (hcfg : s.cfg.reg0Write = .error) (hv : v ≠ 0#32) :
    s.setReg 0 v = s.raise .invariantViolated := by
  rcases s.setReg_cases 0 v with ⟨hr, -⟩ | ⟨-, hz | hd, -⟩ | ⟨-, -, -, e⟩
  · exact absurd rfl hr
  · exact absurd hz hv
  · rw [hcfg] at hd; cases hd
  · exact e

/-- A write of register 0 that is no error changes nothing (R21). -/
theorem setReg_zero_of_writable {s : State} {v : Word} (h : v = 0#32 ∨ s.cfg.reg0Write = .discard) : s.setReg 0 v = s := by
  rw [s.setReg_ok 0 v (.inr h), if_pos rfl]

/-- Settles O9: `setReg` on register 0 changes nothing, or is the error halt. -/
theorem registerZeroIsHardwired : Obligations.RegisterZeroIsHardwired := by
  intro s v
  refine ⟨s.getReg_zero, State.getReg_zero _, fun hv => setReg_zero_of_writable (.inl hv),
    fun _ hd => setReg_zero_of_writable (.inr hd), fun hv he => ?_⟩
  rw [setReg_zero_of_error he hv]
  exact errorHaltOf_raise ..

end Sys2Proof.Machine
end

section
/-! R51 to R55, R68: bytes and words in memory by their numbers, and what an access answers. -/

namespace Sys2Proof.Machine

open Sys2Proof.Claims

/-- R51 by numbers. -/
theorem wordOfBytes_toNat (b0 b1 b2 b3 : Byte) :
    (wordOfBytes b0 b1 b2 b3).toNat = b0.toNat + 2 ^ 8 * b1.toNat + 2 ^ 16 * b2.toNat + 2 ^ 24 * b3.toNat := by
  rw [wordOfBytes, toNat_append_eq_add, toNat_append_eq_add, toNat_append_eq_add]
  omega

theorem readWord_toNat (m : Memory) (a : Nat) : (readWord m a).toNat = littleEndian m a :=
  wordOfBytes_toNat ..

theorem byteOfWord_toNat (v : Word) (k : Nat) : (byteOfWord v k).toNat = v.toNat / 2 ^ (8 * k) % 2 ^ 8 := by
  rw [byteOfWord, BitVec.extractLsb'_toNat, Nat.shiftRight_eq_div_pow]

/-- The byte of a stored word at each of its four addresses. -/
theorem readByte_writeWord_inside (m : Memory) (a : Nat) (v : Word) {k : Nat} (hk : k < 4) :
    readByte (writeWord m a v) (a + k) = byteOfWord v k := by
  rw [readByte_writeWord]
  interval_cases k <;> simp

/-- A word whose first byte is written anew keeps its other three (R68). -/
theorem readWord_writeByte_first (m : Memory) (a : Nat) (v : Word) (b : Byte) :
    readWord (writeByte (writeWord m a v) a b) a = wordOfBytes b (byteOfWord v 1) (byteOfWord v 2) (byteOfWord v 3) := by
  simp [readWord, readByte_writeByte, readByte_writeWord]

/-- Replacing memory is seen in memory alone. -/
theorem allButMem_setMem (s : State) (m : Memory) : AllButMem s (s.setMem m) :=
  ⟨rfl, fun _ => rfl, ⟨rfl, rfl⟩, ⟨rfl, rfl⟩, ⟨rfl, rfl⟩, rfl, rfl, rfl, rfl⟩

section
variable {s : State} {a : Word}

theorem State.memWriteByte_ok (v : Byte) (h : a.toNat < memorySize) :
    s.memWriteByte a v = s.setMem (writeByte s.mem a.toNat v) := by
  simp [memWriteByte, byteAccessError_none.mpr h]

theorem State.memWriteByte_error (v : Byte) (h : memorySize ≤ a.toNat) : s.memWriteByte a v = s.raise .addressOutOfRange := by
  simp [memWriteByte, byteAccessError_some.mpr ⟨rfl, h⟩]

theorem State.memWriteWord_ok (v : Word) (h : wordAccessError s.cfg.misalignedWord a = none) :
    s.memWriteWord a v = s.setMem (writeWord s.mem a.toNat v) := by
  simp [memWriteWord, h]

theorem State.memWriteWord_error (v : Word) {k : ErrorKind} (h : wordAccessError s.cfg.misalignedWord a = some k) :
    s.memWriteWord a v = s.raise k := by
  simp [memWriteWord, h]

variable {p : MisalignedWord}

theorem wordAccessError_misaligned (ha : a.toNat % 4 ≠ 0) (hp : p = .error) : wordAccessError p a = some .misalignedAccess :=
  wordAccessError_some.mpr (.inl ⟨rfl, ha, hp⟩)

theorem wordAccessError_range (ha : a.toNat % 4 = 0 ∨ p = .bytewise) (hr : 65532 < a.toNat + 4) :
    wordAccessError p a = some .addressOutOfRange :=
  wordAccessError_some.mpr (.inr ⟨rfl, ha, hr⟩)

theorem wordAccessError_ok (ha : a.toNat % 4 = 0 ∨ p = .bytewise) (hr : a.toNat + 4 ≤ 65532) : wordAccessError p a = none :=
  wordAccessError_none.mpr ⟨ha, hr⟩

end

/-- Settles O10: the checks in their order, then the bytes. -/
theorem memReadAnswers : Obligations.MemReadAnswers := by
  intro s a
  refine ⟨fun h => State.memReadByte_error (Nat.le_of_lt_succ h), fun h => State.memReadByte_ok h,
    fun ha hp => State.memReadWord_error (wordAccessError_misaligned ha hp),
    fun ha hr => State.memReadWord_error (wordAccessError_range ha hr), fun ha hr => ?_⟩
  exact ⟨_, State.memReadWord_ok (wordAccessError_ok ha hr), readWord_toNat ..⟩

/-- Settles O11: a write is the error halt of the first failing check, or it replaces the bytes it names. -/
theorem memWriteChangesExactlyItsBytes : Obligations.MemWriteChangesExactlyItsBytes := by
  intro s a
  refine ⟨fun b h => ?byteError, fun b h => ?byteOk, fun v ha hp => ?misaligned, fun v ha hr => ?range, fun v ha hr => ?wordOk⟩
  case byteError =>
    rw [State.memWriteByte_error b (Nat.le_of_lt_succ h)]
    exact errorHaltOf_raise ..
  case byteOk =>
    rw [State.memWriteByte_ok b h]
    exact ⟨readByte_writeByte_same .., allButMem_setMem .., fun x hx => readByte_writeByte_ne _ _ _ _ hx⟩
  case misaligned =>
    rw [State.memWriteWord_error v (wordAccessError_misaligned ha hp)]
    exact errorHaltOf_raise ..
  case range =>
    rw [State.memWriteWord_error v (wordAccessError_range ha hr)]
    exact errorHaltOf_raise ..
  case wordOk =>
    rw [State.memWriteWord_ok v (wordAccessError_ok ha hr)]
    refine ⟨fun k hk => ?_, allButMem_setMem .., fun x hx => readByte_writeWord_outside _ v (by omega)⟩
    rw [State.setMem_mem, readByte_writeWord_inside _ _ v hk, byteOfWord_toNat]

/-- Settles O12: each byte read is a byte of the stored word, and the last read puts the four bytes together again, the first of them
written anew. -/
theorem mixedWidthAccessesAgree : Obligations.MixedWidthAccessesAgree := by
  intro s a ha hr
  have hok : wordAccessError s.cfg.misalignedWord a = none := wordAccessError_ok (.inl ha) hr
  rw [State.memWriteWord_ok _ hok]
  have hbyte : ∀ k : Word, k.toNat < 4 → (s.setMem (writeWord s.mem a.toNat 0xAABBCCDD#32)).memReadByte (a + k) =
      .ok (byteOfWord 0xAABBCCDD#32 k.toNat) := by
    intro k hk
    have hsum : (a + k).toNat = a.toNat + k.toNat := by
      rw [BitVec.toNat_add, Nat.mod_eq_of_lt (by omega)]
    have hin : (a + k).toNat < memorySize := by rw [hsum, memorySize]; omega
    rw [State.memReadByte_ok hin, hsum, State.setMem_mem, readByte_writeWord_inside _ _ _ hk]
  have hfirst := hbyte 0#32 (by decide)
  rw [BitVec.add_zero] at hfirst
  refine ⟨hfirst, hbyte 1#32 (by decide), hbyte 2#32 (by decide), hbyte 3#32 (by decide), ?_⟩
  rw [State.memWriteByte_ok _ (by rw [memorySize]; omega), State.memReadWord_ok (by simpa using hok)]
  simp only [State.setMem_mem, readWord_writeByte_first]
  decide

end Sys2Proof.Machine
end

section
/-! R111 to R114, R121, R122: the arithmetic and the shifts by their numbers. Each meaning is a write of a word, and the number of that word
is the one the rule asks for. -/

namespace Sys2Proof.Machine

open Sys2Proof.Claims

theorem ofInt_toInt_sub (a b : Word) : BitVec.ofInt 32 (a.toInt - b.toInt) = a - b := by
  rw [Int.sub_eq_add_neg, BitVec.ofInt_add, BitVec.ofInt_neg, BitVec.ofInt_toInt, BitVec.ofInt_toInt, BitVec.sub_eq_add_neg]

/-- Settles O13: a word is determined by its number, and the sum's is the sum modulo 2^32. -/
theorem addAndSubWrap : Obligations.AddAndSubWrap := by
  intro s rs rt rd v hwritable
  refine ⟨fun hsum => ?add, fun hdiff => ?sub⟩
  case add =>
    obtain rfl : v = s.getReg rs + s.getReg rt := BitVec.eq_of_toNat_eq (hsum.trans (BitVec.toNat_add ..).symm)
    exact ⟨_, rfl, writesOnly_setReg hwritable⟩
  case sub =>
    rw [ofInt_toInt_sub] at hdiff
    subst hdiff
    exact ⟨_, rfl, writesOnly_setReg hwritable⟩

/-- Settles O15: a shift by `h` is a product with, or a quotient by, `2 ^ h`. -/
theorem shiftsAreLogical : Obligations.ShiftsAreLogical := by
  intro s rt rd h v _ hwritable
  refine ⟨fun hprod => ?sll, fun hquot => ?srl⟩
  case sll =>
    obtain rfl : v = s.getReg rt <<< h := BitVec.eq_of_toNat_eq (by
      rw [hprod, BitVec.toNat_shiftLeft, Nat.shiftLeft_eq])
    exact ⟨_, rfl, writesOnly_setReg hwritable⟩
  case srl =>
    obtain rfl : v = s.getReg rt >>> h := BitVec.eq_of_toNat_eq (by
      rw [hquot, BitVec.toNat_ushiftRight, Nat.shiftRight_eq_div_pow])
    exact ⟨_, rfl, writesOnly_setReg hwritable⟩

/-- Settles O24: the word of the integer sum is the sum of the words. -/
theorem addImmediateSignExtends : Obligations.AddImmediateSignExtends := by
  intro s rs rt i v hv hwritable
  rw [BitVec.ofInt_add, BitVec.ofInt_toInt, ← sgnExt_eq_ofInt] at hv
  subst hv
  exact ⟨_, rfl, writesOnly_setReg hwritable⟩

/-! ### `MUL` and `DIV` -/

/-- A write of `HI` and `LO` is seen in them alone. -/
theorem setsHiLoOnly_setHiLo (s : State) (h l : Word) : SetsHiLoOnly s (s.setHiLo h l) h l :=
  ⟨rfl, rfl, rfl, fun _ => rfl, fun _ => rfl, ⟨rfl, rfl⟩, ⟨rfl, rfl⟩, rfl, rfl, rfl, rfl⟩

/-- The product of two words fits 64 bits: it is at least -2^62 and at most 2^62. -/
theorem signedProduct_toInt (a b : Word) : (signedProduct a b).toInt = a.toInt * b.toInt := by
  have hlow : -2 ^ 62 ≤ a.toInt * b.toInt := BitVec.le_toInt_mul_toInt
  have hhigh : a.toInt * b.toInt ≤ 2 ^ 62 := BitVec.toInt_mul_toInt_le
  exact BitVec.toInt_ofInt_eq_self (by decide) (by omega) (by omega)

/-- The two halves put together are the 64 bits. -/
theorem append_halves (p : BitVec 64) : p.extractLsb' 32 32 ++ p.extractLsb' 0 32 = p :=
  (BitVec.extractLsb'_append_extractLsb'_eq_extractLsb' rfl).trans BitVec.extractLsb'_eq_self

/-- Settles O16: `HI` and `LO` are the two halves of the product's 64 bits. -/
theorem mulIsTheExactSignedProduct : Obligations.MulIsTheExactSignedProduct := by
  intro s rs rt
  refine ⟨_, rfl, ?_, setsHiLoOnly_setHiLo ..⟩
  rw [State.setHiLo_hi, State.setHiLo_lo, append_halves, signedProduct_toInt]

theorem divOverflows_iff (a b : Word) : divOverflows a b = true ↔ a.toInt = -2 ^ 31 ∧ b.toInt = -1 := by
  simp only [divOverflows, Bool.and_eq_true, beq_iff_eq, ← BitVec.toInt_inj]
  exact Iff.rfl

/-- The quotient that is not representable set apart, truncated division stays in the words (R114). -/
theorem signedQuotient_toInt {a b : Word} (h : ¬ (a.toInt = -2 ^ 31 ∧ b.toInt = -1)) :
    (signedQuotient a b).toInt = a.toInt.tdiv b.toInt := by
  have hne : a ≠ BitVec.intMin 32 ∨ b ≠ -1#32 := by
    rw [← not_and_or]
    rintro ⟨rfl, rfl⟩
    exact h (by decide)
  rw [signedQuotient, BitVec.toInt_ofInt, ← BitVec.toInt_sdiv, BitVec.toInt_sdiv_of_ne_or_ne a b hne]

/-- A remainder is smaller than the divisor, and so a word. -/
theorem signedRemainder_toInt (a b : Word) : (signedRemainder a b).toInt = a.toInt.tmod b.toInt := by
  rw [signedRemainder, ← BitVec.toInt_srem, BitVec.ofInt_toInt]

theorem tmod_nonpos_of_nonpos {a : Int} (b : Int) (h : a ≤ 0) : a.tmod b ≤ 0 := by
  have := Int.tmod_nonneg b (Int.neg_nonneg_of_nonpos h)
  rw [Int.neg_tmod] at this
  omega

/-- Away from its two special cases `DIV` writes the remainder and the quotient. -/
theorem exec_div_of_regular {s : State} {rs rt : Reg} (hzero : s.getReg rt ≠ 0#32)
    (hover : ¬ ((s.getReg rs).toInt = -2 ^ 31 ∧ (s.getReg rt).toInt = -1)) :
    exec (.div rs rt) s =
      .next (s.setHiLo (signedRemainder (s.getReg rs) (s.getReg rt)) (signedQuotient (s.getReg rs) (s.getReg rt))) :=
  (if_neg hzero).trans (if_neg (mt (divOverflows_iff _ _).mp hover))

/-- Settles O17: the library's laws of truncated division. -/
theorem divTruncatesTowardZero : Obligations.DivTruncatesTowardZero := by
  intro s rs rt hzero hover
  have hnonzero : (s.getReg rt).toInt ≠ 0 := fun h => hzero (BitVec.eq_of_toInt_eq h)
  refine ⟨_, exec_div_of_regular hzero hover, setsHiLoOnly_setHiLo .., ?_⟩
  rw [State.setHiLo_hi, State.setHiLo_lo, signedQuotient_toInt hover, signedRemainder_toInt]
  refine ⟨?law, ?bound, Int.tmod_nonneg _, tmod_nonpos_of_nonpos _⟩
  case law => rw [mul_comm, Int.mul_tdiv_add_tmod]
  case bound => rw [Int.natAbs_tmod]; exact Nat.mod_lt _ (Int.natAbs_pos.mpr hnonzero)

/-- `DIV` of -2^31 by -1 (R212). -/
theorem exec_div_of_overflow {s : State} {rs rt : Reg} (ha : (s.getReg rs).toInt = -2 ^ 31) (hb : (s.getReg rt).toInt = -1) :
    exec (.div rs rt) s = match s.cfg.divOverflow with
      | .fault => .fault .divOverflow
      | .wrap => .next (s.setHiLo 0#32 0x80000000#32)
      | .error => .next (s.raise .divisionOverflow) := by
  have hzero : s.getReg rt ≠ 0#32 := by
    intro h
    rw [h] at hb
    cases hb
  exact (if_neg hzero).trans (if_pos ((divOverflows_iff _ _).mpr ⟨ha, hb⟩))

/-- Settles O19: one setting, one arm. -/
theorem divOverflowGoesByItsParameter : Obligations.DivOverflowGoesByItsParameter := by
  intro s rs rt ha hb
  rw [exec_div_of_overflow ha hb]
  refine ⟨fun h => ?_, fun h => ?_, fun h => ?_⟩ <;> rw [h]
  · exact ⟨_, rfl, setsHiLoOnly_setHiLo ..⟩
  · exact ⟨_, rfl, errorHaltOf_raise ..⟩

end Sys2Proof.Machine
end

section
/-! R123, R145 to R151: the branches and `JR` write `pc` alone. -/

namespace Sys2Proof.Machine

open Sys2Proof.Claims

/-- Settles O23: the meaning is a write of `pc`. -/
theorem jumpRegisterSetsPc : Obligations.JumpRegisterSetsPc :=
  fun s _ => ⟨_, rfl, jumpsOnly_setPc s _⟩

/-- The common rule of the branches (R145), the target by its number. -/
theorem jumpsOnly_branchIf (s : State) {c : Bool} {o : BitVec 16} {target v : Word}
    (htarget : target = BitVec.ofInt 32 (s.pc.toNat + 4 * o.toInt)) (hv : v = if c then target else s.pc) :
    JumpsOnly s (s.branchIf c o) v := by
  rw [← s.branchTarget_eq_ofInt] at htarget
  subst htarget hv
  cases c
  · exact jumpsOnly_setPc s s.pc
  · exact jumpsOnly_setPc s _

/-- Settles O26: `condEq` is equality of the words. -/
theorem equalityBranches : Obligations.EqualityBranches := by
  intro s rs rt o target htarget
  refine ⟨⟨_, rfl, jumpsOnly_branchIf s htarget ?_⟩, ⟨_, rfl, jumpsOnly_branchIf s htarget ?_⟩⟩
  · simp [condEq]
  · simp [condEq, ite_not]

/-- Settles O27: each condition is the comparison of the signed number with 0. -/
theorem signBranches : Obligations.SignBranches := by
  rintro s rs o target _ htarget rfl
  refine ⟨⟨_, rfl, jumpsOnly_branchIf s htarget ?_⟩, ⟨_, rfl, jumpsOnly_branchIf s htarget ?_⟩,
    ⟨_, rfl, jumpsOnly_branchIf s htarget ?_⟩, ⟨_, rfl, jumpsOnly_branchIf s htarget ?_⟩⟩
  · simp [condGez]
  · simp [condGtz]
  · simp [condLez]
  · simp [condLtz]

end Sys2Proof.Machine
end

section
/-! R152 to R156, R205, R206: the loads and the stores at the word of `x[rs] + 4 * signed16(immed)`. -/

namespace Sys2Proof.Machine

open Sys2Proof.Claims

section
variable {s : State} {rs rt : Reg} {o : BitVec 16}

/-! ### One equation for each outcome of an access -/

theorem exec_lbu_ok (h : (s.effectiveAddress rs o).toNat < memorySize) :
    exec (.lbu rs rt o) s = .next (s.setReg rt ((readByte s.mem (s.effectiveAddress rs o).toNat).setWidth 32)) := by
  simp only [exec, execLbu, State.memReadByte_ok h]

theorem exec_lbu_error (h : memorySize ≤ (s.effectiveAddress rs o).toNat) :
    exec (.lbu rs rt o) s = .next (s.raise .addressOutOfRange) := by
  simp only [exec, execLbu, State.memReadByte_error h]

theorem exec_lw_ok (h : wordAccessError s.cfg.misalignedWord (s.effectiveAddress rs o) = none) :
    exec (.lw rs rt o) s = .next (s.setReg rt (readWord s.mem (s.effectiveAddress rs o).toNat)) := by
  simp only [exec, execLw, State.memReadWord_ok h]

theorem exec_lw_error {k : ErrorKind} (h : wordAccessError s.cfg.misalignedWord (s.effectiveAddress rs o) = some k) :
    exec (.lw rs rt o) s = .next (s.raise k) := by
  simp only [exec, execLw, State.memReadWord_error h]

theorem exec_sb_ok (h : (s.effectiveAddress rs o).toNat < memorySize) :
    exec (.sb rs rt o) s =
      .next (s.setMem (writeByte s.mem (s.effectiveAddress rs o).toNat (byteOfWord (s.getReg rt) 0))) := by
  simp only [exec, execSb, State.memWriteByte_ok _ h]

theorem exec_sb_error (h : memorySize ≤ (s.effectiveAddress rs o).toNat) :
    exec (.sb rs rt o) s = .next (s.raise .addressOutOfRange) := by
  simp only [exec, execSb, State.memWriteByte_error _ h]

theorem exec_sw_ok (h : wordAccessError s.cfg.misalignedWord (s.effectiveAddress rs o) = none) :
    exec (.sw rs rt o) s = .next (s.setMem (writeWord s.mem (s.effectiveAddress rs o).toNat (s.getReg rt))) := by
  simp only [exec, execSw, State.memWriteWord_ok _ h]

theorem exec_sw_error {k : ErrorKind} (h : wordAccessError s.cfg.misalignedWord (s.effectiveAddress rs o) = some k) :
    exec (.sw rs rt o) s = .next (s.raise k) := by
  simp only [exec, execSw, State.memWriteWord_error _ h]

end

/-! ### Accesses inside memory -/

/-- Settles O28: the byte keeps its number when it is zero-extended. -/
theorem loadByteZeroExtends : Obligations.LoadByteZeroExtends := by
  rintro s rs rt o ea v hea hin hv hwritable
  rw [← s.effectiveAddress_eq_ofInt] at hea
  subst hea
  obtain rfl : v = (readByte s.mem (s.effectiveAddress rs o).toNat).setWidth 32 :=
    BitVec.eq_of_toNat_eq (hv.trans (BitVec.toNat_setWidth_of_le (by decide)).symm)
  exact ⟨_, exec_lbu_ok hin, writesOnly_setReg hwritable⟩

/-- Settles O29: the word read is the one whose number the four bytes make. -/
theorem loadWordIsLittleEndian : Obligations.LoadWordIsLittleEndian := by
  rintro s rs rt o ea v hea hin halign hv hwritable
  rw [← s.effectiveAddress_eq_ofInt] at hea
  subst hea
  obtain rfl : v = readWord s.mem (s.effectiveAddress rs o).toNat :=
    BitVec.eq_of_toNat_eq (hv.trans (readWord_toNat ..).symm)
  exact ⟨_, exec_lw_ok (wordAccessError_ok halign hin), writesOnly_setReg hwritable⟩

/-- Settles O30: the meaning is a write of the byte whose number is the word's modulo 2^8. -/
theorem storeByteChangesOneByte : Obligations.StoreByteChangesOneByte := by
  rintro s rs rt o ea hea hin
  rw [← s.effectiveAddress_eq_ofInt] at hea
  subst hea
  refine ⟨_, exec_sb_ok hin, ?_, fun a ha => readByte_writeByte_ne _ _ _ _ ha, allButMem_setMem ..⟩
  rw [State.setMem_mem, readByte_writeByte_same, byteOfWord_toNat, Nat.mul_zero, pow_zero, Nat.div_one]

/-- Settles O31: the word read back is the word written, and its number is the four bytes'. -/
theorem storeWordChangesFourBytes : Obligations.StoreWordChangesFourBytes := by
  rintro s rs rt o ea hea hin halign
  rw [← s.effectiveAddress_eq_ofInt] at hea
  subst hea
  refine ⟨_, exec_sw_ok (wordAccessError_ok halign hin), ?_, fun a ha => readByte_writeWord_outside _ _ (by omega),
    allButMem_setMem ..⟩
  rw [← readWord_toNat, State.setMem_mem, readWord_writeWord_same]

/-! ### Accesses that fail their checks -/

/-- A step whose instruction is an error halt, in the order of R205 and R206. -/
theorem step_errorHalt {s : State} {i : Instr} {k : ErrorKind} (hat : AtInstr s i)
    (hx : exec i s.advancePc = .next (s.advancePc.raise k)) :
    ∃ t, step s = .next t ∧ t.status = .error k ∧ t.stderr = s.stderr ++ [k] ∧ t.pc = s.pc + 4#32 ∧ SameRegs s t ∧
      SameHiLo s t ∧ SameMem s t ∧ SameIo s t ∧ t.tracing = s.tracing ∧ t.header = s.header ∧ t.cfg = s.cfg := by
  obtain ⟨t, hstep, hstatus, hstderr, hpc, hhilo, hregs, hrest⟩ := step_of_exec_raise hat hx
  exact ⟨t, hstep, hstatus, hstderr, hpc, hregs, hhilo, hrest⟩

/-- `PSTR` of a string with no zero byte in memory (D23). -/
theorem exec_pstr_unterminated {s : State} (h : ∀ a, (s.getReg 4).toNat ≤ a → a < 65532 → readByte s.mem a ≠ 0#8) :
    exec .pstr s = .next (s.raise .addressOutOfRange) := by
  have hnone : s.stringAt (s.getReg regA0) = none :=
    readString_none.mpr fun k hk => h _ (Nat.le_add_right ..) (by rw [memorySize] at hk; omega)
  simp only [exec, execPstr, hnone]

/-- Settles O32: the advance of `pc` changes no address and no string, so the instruction's meaning is the error halt. -/
theorem accessOutsideMemoryIsAnErrorHalt : Obligations.AccessOutsideMemoryIsAnErrorHalt := by
  rintro s rs rt o ea i hat hea hcause
  rw [← s.effectiveAddress_eq_ofInt] at hea
  subst hea
  refine step_errorHalt hat ?_
  rcases hcause with ⟨rfl | rfl, hout⟩ | ⟨rfl | rfl, halign, hout⟩ | ⟨rfl, hstring⟩
  · exact exec_lbu_error (s := s.advancePc) hout
  · exact exec_sb_error (s := s.advancePc) hout
  · exact exec_lw_error (s := s.advancePc) (wordAccessError_range halign hout)
  · exact exec_sw_error (s := s.advancePc) (wordAccessError_range halign hout)
  · exact exec_pstr_unterminated (s := s.advancePc) hstring

/-- Settles O33: the alignment check comes first. -/
theorem misalignedWordIsAnErrorHalt : Obligations.MisalignedWordIsAnErrorHalt := by
  rintro s rs rt o ea i hat hea hi hmisaligned hsetting
  rw [← s.effectiveAddress_eq_ofInt] at hea
  subst hea
  refine step_errorHalt hat ?_
  rcases hi with rfl | rfl
  · exact exec_lw_error (s := s.advancePc) (wordAccessError_misaligned hmisaligned hsetting)
  · exact exec_sw_error (s := s.advancePc) (wordAccessError_misaligned hmisaligned hsetting)

/-! ### Results for register 0 -/

/-- A meaning that writes a non-zero word to register 0 is the error halt of R21 under `REG0_WRITE = error`. -/
theorem errorHalt_of_exec_setReg_zero {s : State} {i : Instr} {v : Word} (hcfg : s.cfg.reg0Write = .error)
    (hx : exec i s = .next (s.setReg 0 v)) (hv : v ≠ 0#32) :
    ∃ t, exec i s = .next t ∧ ErrorHaltOf s t .invariantViolated := by
  rw [setReg_zero_of_error hcfg hv] at hx
  exact ⟨_, hx, errorHaltOf_raise ..⟩

/-- Settles O34: each meaning writes its result to its destination, and each condition says that the result is not zero. -/
theorem writingRegisterZeroIsAnErrorUnderError : Obligations.WritingRegisterZeroIsAnErrorUnderError := by
  intro s rs rt h i16 hcfg
  have write {i : Instr} {v : Word} := @errorHalt_of_exec_setReg_zero s i v hcfg
  refine ⟨write rfl, fun hne => write rfl (sub_ne_zero.mpr hne), write rfl, write rfl, fun hne => write rfl ?nor,
    fun hne => write rfl (mt BitVec.xor_eq_zero_iff.mp hne), write rfl, write rfl, write rfl, write rfl, write rfl, write rfl, write rfl,
    fun hne => write rfl (mt BitVec.xor_eq_zero_iff.mp hne), fun hin hne => write (exec_lbu_ok hin) ?lbu,
    fun halign hin => write (exec_lw_ok (wordAccessError_ok halign hin))⟩
  case nor => exact mt BitVec.not_eq_comm.mp hne
  case lbu =>
    refine fun hzero => hne (BitVec.eq_of_toNat_eq ?_)
    rw [← BitVec.toNat_setWidth_of_le (show 8 ≤ 32 by decide), hzero]
    rfl

end Sys2Proof.Machine
end

section
/-! R172, R173, R181 to R184: the link of `JAL`, and the system calls. A system call's result is a write of register 2, after the output or
the input it makes. -/

namespace Sys2Proof.Machine

open Sys2Proof.Claims

/-- Settles O36: the link is the address after the `JAL`, and `JR` jumps to what register 31 holds. -/
theorem returnResumesAfterTheCall : Obligations.ReturnResumesAfterTheCall := by
  intro s t a hat hstep u hu
  obtain ⟨v, hv, rfl⟩ := exec_of_step_at hat hstep
  cases hv
  refine ⟨_, rfl, ?_⟩
  calc u.getReg 31
      = (s.advancePc.setReg regRa s.advancePc.pc).getReg 31 := by rw [hu]; simp
    _ = s.pc + 4#32 := State.setReg_getReg_self _ _ _ (by decide)

/-- Settles O37: the halt writes the status alone. -/
theorem exitHaltsNormally : Obligations.ExitHaltsNormally :=
  fun s => ⟨s.halt, rfl, rfl, rfl, rfl, fun _ => rfl, ⟨rfl, rfl⟩, fun _ => rfl, ⟨rfl, rfl⟩, ⟨rfl, rfl, rfl, rfl⟩, rfl⟩

/-- A system call's result is always written: register 2 is not register 0. -/
theorem writesOnly_setReg_v0 (s : State) (v : Word) : WritesOnly s (s.setReg regV0 v) regV0 v :=
  writesOnly_setReg (.inl (by decide))

/-- The string found is the bytes before the first zero byte (R182). -/
theorem readString_of_first_zero {m : Memory} {a n bound : Nat} (hn : n < bound) (hzero : readByte m (a + n) = 0#8)
    (hbefore : ∀ k, k < n → readByte m (a + k) ≠ 0#8) :
    readString m a bound = some ((List.range n).map fun k => readByte m (a + k)) := by
  induction n generalizing a bound with
  | zero =>
    obtain ⟨b, rfl⟩ := Nat.exists_eq_succ_of_ne_zero (Nat.ne_zero_of_lt hn)
    exact if_pos hzero
  | succ n ih =>
    obtain ⟨b, rfl⟩ := Nat.exists_eq_succ_of_ne_zero (Nat.ne_zero_of_lt hn)
    have hshift : ∀ k, a + 1 + k = a + (k + 1) := fun k => by omega
    have hrest := ih (a := a + 1) (bound := b) (by omega) (by rw [hshift]; exact hzero)
      (fun k hk => by rw [hshift]; exact hbefore (k + 1) (by omega))
    have hfirst : readByte m a ≠ 0#8 := hbefore 0 (by omega)
    rw [readString, if_neg hfirst, hrest, List.range_succ_eq_map]
    simp [hshift, Function.comp_def]

theorem exec_pstr_of_string {s : State} {bs : List Byte} (h : s.stringAt (s.getReg regA0) = some bs) :
    exec .pstr s = .next ((s.output bs).setReg regV0 (BitVec.ofNat 32 bs.length)) := by
  simp only [exec, execPstr, h]

/-- Settles O38: what `PSTR` prints is the string found, and its length is a word. -/
theorem printStringPrintsUpToTheZero : Obligations.PrintStringPrintsUpToTheZero := by
  rintro s a n ha hin hzero hbefore
  have hbound : n < memorySize - (s.getReg regA0).toNat := by
    change a = (s.getReg regA0).toNat at ha
    rw [memorySize]; omega
  have hstring : s.stringAt (s.getReg regA0) = some ((List.range n).map fun k => readByte s.mem (a + k)) := by
    subst ha
    exact readString_of_first_zero hbound hzero hbefore
  obtain ⟨hresult, hother, hpc, hhilo, hmem, hstatus, ⟨hstdin, hstdout⟩, hvm⟩ := writesOnly_setReg_v0 (s.output _) _
  refine ⟨_, exec_pstr_of_string hstring, hstdout, ?_, fun r hr => hother r (.inl hr), hstdin, hpc, hhilo, hmem, hstatus, hvm⟩
  rw [hresult (by decide), List.length_map, List.length_range, BitVec.toNat_ofNat, Nat.mod_eq_of_lt (by omega)]

/-- Settles O39: the byte printed is the one returned. -/
theorem printCharacterPrintsTheLowByte : Obligations.PrintCharacterPrintsTheLowByte := by
  intro s
  obtain ⟨hresult, hother, hpc, hhilo, hmem, hstatus, ⟨hstdin, hstdout⟩, hvm⟩ := writesOnly_setReg_v0
    (s.output [byteOfWord (s.getReg regA0) 0]) ((byteOfWord (s.getReg regA0) 0).setWidth 32)
  refine ⟨_, _, rfl, ?_, hstdout, ?_, fun r hr => hother r (.inl hr), hstdin, hpc, hhilo, hmem, hstatus, hvm⟩
  · rw [byteOfWord_toNat, Nat.mul_zero, pow_zero, Nat.div_one]
  · rw [hresult (by decide), BitVec.toNat_setWidth_of_le (by decide)]

/-- Settles O40: the value of the input and what it leaves, in both cases of standard input. -/
theorem readCharacterConsumesOneByte : Obligations.ReadCharacterConsumesOneByte := by
  intro s
  obtain ⟨hresult, hother, hpc, hhilo, hmem, hstatus, ⟨hstdin, hstdout⟩, hvm⟩ :=
    writesOnly_setReg_v0 s.consumeInput s.inputValue
  refine ⟨_, rfl, fun b rest hin => ⟨?_, ?_⟩, fun hend => ⟨?_, ?_⟩, fun r hr => hother r (.inl hr), hstdout, hpc, hhilo, hmem,
    hstatus, hvm⟩
  · rw [hresult (by decide), State.inputValue, hin, BitVec.toNat_setWidth_of_le (by decide)]
  · rw [hstdin, State.consumeInput_stdin, hin, List.tail_cons]
  · rw [hresult (by decide), State.inputValue, hend]
  · rw [hstdin, State.consumeInput_stdin, hend, List.tail_nil]

end Sys2Proof.Machine
end

section
/-! R204, R238, R203: one turn of the machine cycle, from the fetch to the check at its end. -/

namespace Sys2Proof.Machine

open Sys2Proof.Claims
open Host (Outcome)

/-- Four bytes decode as the word they make (R51, R80). -/
theorem decodeWord_of_decodeBytes {strict : Bool} {b0 b1 b2 b3 : Byte} {rest rest' : List Byte} {i : Instr}
    (h : decodeBytes strict (b0 :: b1 :: b2 :: b3 :: rest) = .ok (i, rest')) :
    decodeWord strict (wordOfBytes b0 b1 b2 b3) = .ok i := by
  cases hd : decodeWord strict (wordOfBytes b0 b1 b2 b3) <;> simp only [decodeBytes, hd] at h <;> cases h
  rfl

/-- Settles O42: the word at `pc` is the little-endian word of the four bytes, so the fetch is their instruction. -/
theorem stepRunsTheDecodedInstruction : Obligations.StepRunsTheDecodedInstruction := by
  intro s i hrun hinv hbytes
  rw [step_of_fetch hrun hinv (decodeWord_of_decodeBytes hbytes)]
  rfl

/-- Settles O43: the two outcomes of the invariant check. -/
theorem finishStepChecksTheInvariants : Obligations.FinishStepChecksTheInvariants := by
  intro s a i b
  refine ⟨fun r => s.finishStep_getReg a i b r, ⟨s.finishStep_hi .., s.finishStep_lo ..⟩, s.finishStep_mem .., s.finishStep_pc ..,
    ⟨s.finishStep_stdin .., s.finishStep_stdout ..⟩, s.finishStep_tracing .., s.finishStep_header .., s.finishStep_cfg ..,
    fun hrun hbroken => ?broken, fun hkept => ?kept⟩
  all_goals rcases s.checkInvariants_cases with ⟨hor, e⟩ | ⟨hrun', hbroken', e⟩
  case broken.inl => exact absurd hor (not_or.mpr ⟨not_not.mpr hrun, hbroken⟩)
  case broken.inr => simp [e]
  case kept.inl => simp [SameStatus, e]
  case kept.inr => exact absurd (hkept hrun') hbroken'

/-- A word that is no instruction (R204). -/
theorem step_of_fetch_error {s : State} {e : DecodeError} (hrun : s.status = .running) (hinv : s.Invariants)
    (he : s.fetch = .error e) : step s = .next (s.advancePc.raise .undefinedInstruction) := by
  simp only [step, State.cycle, if_pos hrun, if_pos hinv, he]

/-- Settles O44: a word that matches no row is undefined. -/
theorem undefinedInstructionIsAnErrorHalt : Obligations.UndefinedInstructionIsAnErrorHalt := by
  intro s hrun hinv hcause
  obtain ⟨e, he⟩ : ∃ e, s.fetch = .error e := by
    rcases hcause with ⟨hstrict, hnone⟩ | hundefined
    · rw [State.fetch, hstrict]
      exact (decodeWord_error_iff _).mpr hnone
    · exact hundefined
  exact ⟨_, step_of_fetch_error hrun hinv he, rfl, rfl, rfl, fun _ => rfl, ⟨rfl, rfl⟩, fun _ => rfl, ⟨rfl, rfl⟩,
    rfl, rfl, rfl, rfl⟩

/-! ### The status after a step -/

/-- Of all meanings only `EXIT`'s is the normal halt; every other leaves the status or is an error halt. -/
theorem exec_status {i : Instr} {s t : State} (hi : i ≠ .exit) (hx : exec i s = .next t) :
    t.status = s.status ∨ ∃ k, t.status = .error k := by
  rcases exec_cases i s with ⟨k, e⟩ | ⟨_, _, -, -, -, -, e⟩ | ⟨_, -, e⟩ | ⟨_, _, -, e⟩ | ⟨_, _, _, _, -, e⟩ |
    ⟨_, _, _, -, -, e⟩ | ⟨_, _, _, -, -, e⟩ | ⟨_, _, -, e⟩ | ⟨_, -, e⟩ | ⟨hexit, -⟩ | ⟨_, -, e⟩ | ⟨_, _, -, -, e⟩
  case inl => rw [e] at hx; cases hx; exact .inr ⟨k, rfl⟩
  case inr.inr.inr.inr.inr.inr.inr.inr.inr.inl => exact absurd hexit hi
  case inr.inl | inr.inr.inr.inl | inr.inr.inr.inr.inr.inr.inr.inl | inr.inr.inr.inr.inr.inr.inr.inr.inl => -- a register write
    rw [e] at hx
    cases hx
    exact (State.setReg_status ..).imp id fun h => ⟨_, h⟩
  all_goals rw [e] at hx; cases hx <;> exact .inl rfl

/-- The check keeps the status or is the error halt. -/
theorem State.checkInvariants_status (s : State) :
    s.checkInvariants.status = s.status ∨ s.checkInvariants.status = .error .invariantViolated := by
  rcases s.checkInvariants_cases with ⟨-, e⟩ | ⟨-, -, e⟩
  · exact .inl (by rw [e])
  · exact .inr (by rw [e]; rfl)

/-- The step of an instruction other than `EXIT` leaves the machine running or in an error. -/
theorem step_status {s t : State} {i : Instr} (hat : AtInstr s i) (hi : i ≠ .exit) (h : step s = .next t) :
    t.status = .running ∨ ∃ k, t.status = .error k := by
  obtain ⟨u, hu, rfl⟩ := exec_of_step_at hat h
  rw [State.finishStep_status]
  rcases u.checkInvariants_status with hcheck | hcheck
  · obtain ⟨hrun, -, -⟩ := hat
    rw [hcheck]
    exact (exec_status hi hu).imp (·.trans hrun) id
  · exact .inr ⟨_, hcheck⟩

/-- No check is made after `EXIT` (D15). -/
theorem step_exit_status {s t : State} (hat : AtInstr s .exit) (h : step s = .next t) : t.status = .exited := by
  obtain ⟨u, hu, rfl⟩ := exec_of_step_at hat h
  cases hu
  have hcheck : s.advancePc.halt.checkInvariants = s.advancePc.halt := if_neg fun h => nomatch h.1
  rw [State.finishStep_status, hcheck]
  rfl

/-- Settles O47: without a transfer `pc` is 65532 after the step, and no running state has such a `pc`. -/
theorem executionNeverRunsOffTheEnd : Obligations.ExecutionNeverRunsOffTheEnd := by
  intro s t i hat hpc hstep hstay
  have hend : t.pc = 65532#32 := by
    have hadvanced : t.pc = s.pc + 4#32 := hstay.elim (fun hi => onlyTransfersWritePc s t i hat hi hstep) id
    rw [hadvanced, hpc]
    rfl
  split_ifs with hi
  · subst hi
    exact step_exit_status hat hstep
  · refine (step_status hat hi hstep).resolve_left fun hrun => ?_
    obtain ⟨-, hin, -⟩ := runningStatesMeetTheInvariants s t hstep hrun
    rw [hend] at hin
    exact absurd hin (by decide)

/-- Settles O53: one status, one exit code, and a legal error code is not 0. -/
theorem exitCodeTellsTheHalt : Obligations.ExitCodeTellsTheHalt := by
  rintro s ⟨-, hcode, -⟩
  unfold State.exitCode
  cases hs : s.status <;> simp [hcode]

/-- Settles O49: the word read where a word was written is that word. -/
theorem storedWordIsFetched : Obligations.StoredWordIsFetched := by
  intro s t rs rt o hat hok hstep u hmem hpc
  obtain ⟨v, hv, rfl⟩ := exec_of_step_at hat hstep
  rw [exec_sw_ok (s := s.advancePc) hok] at hv
  cases hv
  rw [State.fetchWord, hmem, hpc, State.finishStep_mem]
  exact readWord_writeWord_same ..

end Sys2Proof.Machine
end

section
/-! R34, R240: the streams. -/

namespace Sys2Proof.Machine

open Sys2Proof.Claims

/-- A register write adds nothing to standard error but the message of R21. -/
theorem State.setReg_stderr_prefix (s : State) (r : Reg) (v : Word) : s.stderr <+: (s.setReg r v).stderr := by
  rcases s.setReg_cases r v with ⟨-, e⟩ | ⟨-, -, e⟩ | ⟨-, -, -, e⟩ <;> rw [e]
  exact List.prefix_append ..

theorem State.checkInvariants_stderr_prefix (s : State) : s.stderr <+: s.checkInvariants.stderr := by
  rcases s.checkInvariants_cases with ⟨-, e⟩ | ⟨-, -, e⟩ <;> rw [e]
  exact List.prefix_append ..

/-- What a meaning can do to the streams: only `output` writes standard output, and it appends; only `consumeInput` reads standard input,
and from its front. -/
theorem exec_streams {i : Instr} {s t : State} (hx : exec i s = .next t) :
    s.stderr <+: t.stderr ∧ (t.stdout = s.stdout ∨ ((i = .pstr ∨ i = .pch) ∧ s.stdout <+: t.stdout)) ∧
    (t.stdin = s.stdin ∨ (i = .rch ∧ t.stdin <:+ s.stdin)) := by
  rcases exec_cases i s with ⟨_, e⟩ | ⟨r, v, -, -, -, -, e⟩ | ⟨_, -, e⟩ | ⟨a, v, -, e⟩ | ⟨_, _, _, _, -, e⟩ |
    ⟨_, _, _, -, -, e⟩ | ⟨_, _, _, -, -, e⟩ | ⟨bs, v, hi, e⟩ | ⟨v, hi, e⟩ | ⟨-, e⟩ | ⟨_, -, e⟩ | ⟨_, _, -, -, e⟩
  case inr.inl => rw [e] at hx; cases hx; simp [s.setReg_stderr_prefix r v]
  case inr.inr.inr.inl => rw [e] at hx; cases hx; simp [s.setReg_stderr_prefix regRa s.pc]
  case inr.inr.inr.inr.inr.inr.inr.inl =>
    rw [e] at hx; cases hx; simpa [hi] using (s.output bs).setReg_stderr_prefix regV0 v
  case inr.inr.inr.inr.inr.inr.inr.inr.inl =>
    rw [e] at hx; cases hx; simpa [hi, List.tail_suffix] using s.consumeInput.setReg_stderr_prefix regV0 v
  all_goals rw [e] at hx; cases hx <;> simp

/-- Settles O50: a meaning's effect on the streams, and the end of the step, which adds to standard error and the trace alone. -/
theorem streamsMoveForward : Obligations.StreamsMoveForward := by
  intro s t hstep
  obtain ⟨-, hheader, hcfg⟩ := step_frame hstep
  rcases step_cases hstep with ⟨-, -, rfl⟩ | ⟨-, -, -, rfl⟩ | ⟨-, -, i, u, hfetch, hu, rfl⟩
  · simp
  · simp
  · obtain ⟨hstderr, hout, hin⟩ := exec_streams hu
    obtain ⟨-, -, -, htrace⟩ := exec_frame hu
    rw [State.advancePc_stdout] at hout
    rw [State.advancePc_stdin] at hin
    rw [State.finishStep_stdout, State.finishStep_stdin, hfetch]
    refine ⟨?_, ?_, hstderr.trans u.checkInvariants_stderr_prefix, ?_, hheader, hcfg, fun hne => ?_, fun hne => ?_⟩
    · rcases hout with e | ⟨-, hprefix⟩
      · rw [e]
      · exact hprefix
    · rcases hin with e | ⟨-, hsuffix⟩
      · rw [e]
      · exact hsuffix
    · rw [State.finishStep_trace, htrace]
      exact List.suffix_append ..
    · obtain ⟨hi, -⟩ := hout.resolve_left hne
      exact hi.imp (congrArg _) (congrArg _)
    · obtain ⟨hi, -⟩ := hin.resolve_left hne
      exact congrArg _ hi

end Sys2Proof.Machine
end

section
/-! R243: the trace of a step: the instruction's line, and the state after it. -/

namespace Sys2Proof.Machine

open Sys2Proof.Claims

theorem nonzeroWord_iff (m : Memory) (a : Nat) : NonzeroWord m a ↔ readWord m a ≠ 0#32 := by
  rw [NonzeroWord, ← readWord_toNat, not_iff_not]
  exact BitVec.toNat_eq (y := 0#32).symm

/-- What `showWords` shows is what R243 asks for, since a word is determined by its number. -/
theorem showsMemory_showWords (m : Memory) (a n : Nat) : ShowsMemory (showWords m false a n) m a n := by
  refine ⟨fun x w => ?_, fun x => ?_, showWords_sorted m false a n⟩
  · simp only [word_mem_showWords, nonzeroWord_iff, memorySize, ← readWord_toNat, BitVec.toNat_inj]
  · simp only [zeros_mem_showWords, nonzeroWord_iff, memorySize, not_not]
    refine exists_congr fun k => ?_
    by_cases hk : k = 0 <;> simp [hk]

theorem showsState_dump (s : State) : ShowsState s.dump s := by
  refine ⟨rfl, s.dump_reg, shownWord_eq_some s.hi, shownWord_eq_some s.lo, ?data, ?stack⟩
  case data => rw [State.dump_data]; exact showsMemory_showWords ..
  case stack => rw [State.dump_stack]; exact showsMemory_showWords ..

section
variable (s : State) (a : Word) (i : Instr)

theorem State.traceItems_of_running (hrun : s.status = .running) (ht : s.tracing = true) :
    s.traceItems a i true = [.state s.dump, .line a i] := by
  simp [traceItems, showsState, showsLine, hrun, ht]

theorem State.traceItems_of_exited (hexit : s.status = .exited) : s.traceItems a i true = [.line a i] := by
  simp [traceItems, showsLine, hexit]

theorem State.traceItems_of_off (ht : s.tracing = false) : s.traceItems a i false = [] := by
  simp [traceItems, showsState, showsLine, ht]

end

/-- Settles O52: the meaning leaves the trace, and the end of the step adds the items that the flag and the status ask for. -/
theorem traceShowsLineThenState : Obligations.TraceShowsLineThenState := by
  intro s t i hat hstep hflag
  have hexit : i = .exit → t.status = .exited := fun hi => step_exit_status (hi ▸ hat) hstep
  obtain ⟨u, hu, rfl⟩ := exec_of_step_at hat hstep
  obtain ⟨-, -, -, htrace⟩ := exec_frame hu
  rw [State.finishStep_tracing, ← u.checkInvariants_tracing] at hflag
  rw [State.finishStep_status] at hexit ⊢
  rw [State.finishStep_trace, htrace, State.advancePc_trace]
  refine ⟨fun hon hrun => ⟨u.dump, ?running, ?_⟩, fun hon hi => ?exited, fun hoff => ?off⟩
  case running => rw [← u.finishStep_dump s.pc i s.tracing]; exact showsState_dump _
  · rw [hon, State.traceItems_of_running _ _ _ hrun (hflag.trans hon), State.checkInvariants_dump]
    rfl
  case exited => rw [hon, State.traceItems_of_exited _ _ _ (hexit hi)]; rfl
  case off => rw [hoff, State.traceItems_of_off _ _ _ (hflag.trans hoff)]; rfl

end Sys2Proof.Machine
end

section
/-! R212, U26: the one step of a running machine that has no result. -/

namespace Sys2Proof.Machine

open Sys2Proof.Claims

/-- Of everything a meaning can answer only the last is no next state: the fault of `DIV` (R212). -/
theorem exec_of_stuck {i : Instr} {s : State} (h : ∀ t, exec i s ≠ .next t) :
    ∃ rs rt, i = .div rs rt ∧ s.cfg.divOverflow = .fault ∧ exec i s = .fault .divOverflow := by
  rcases exec_cases i s with ⟨_, e⟩ | ⟨_, _, -, -, -, -, e⟩ | ⟨_, -, e⟩ | ⟨_, _, -, e⟩ | ⟨_, _, _, _, -, e⟩ |
    ⟨_, _, _, -, -, e⟩ | ⟨_, _, _, -, -, e⟩ | ⟨_, _, -, e⟩ | ⟨_, -, e⟩ | ⟨-, e⟩ | ⟨_, -, e⟩ | hfault
  case inr.inr.inr.inr.inr.inr.inr.inr.inr.inr.inr => exact hfault
  all_goals exact absurd e (h _)

/-- Every other `DIV` has a next state (R114, R202). -/
theorem operands_of_div_stuck {s : State} {rs rt : Reg} (h : ∀ t, exec (.div rs rt) s ≠ .next t) :
    (s.getReg rs).toInt = -2 ^ 31 ∧ (s.getReg rt).toInt = -1 := by
  by_contra hover
  by_cases hzero : s.getReg rt = 0#32
  · exact h _ (exec_div_of_zero hzero)
  · exact h _ (exec_div_of_regular hzero hover)

/-- A step of a running machine without a next state is such a `DIV`: the other turns of the cycle are error halts. -/
theorem step_of_stuck {s : State} (hrun : s.status = .running) (h : ∀ t, step s ≠ .next t) :
    s.cfg.divOverflow = .fault ∧ step s = .fault .divOverflow ∧
    ∃ rs rt, s.fetch = .ok (.div rs rt) ∧ (s.getReg rs).toInt = -2 ^ 31 ∧ (s.getReg rt).toInt = -1 := by
  by_cases hinv : s.Invariants
  · cases hfetch : s.fetch with
    | error e => exact absurd (step_of_fetch_error hrun hinv hfetch) (h _)
    | ok i =>
      have hstuck : ∀ t, exec i s.advancePc ≠ .next t := fun t ht => h _ (step_of_exec_at ⟨hrun, hinv, hfetch⟩ ht)
      obtain ⟨rs, rt, rfl, hcfg, hexec⟩ := exec_of_stuck hstuck
      refine ⟨hcfg, ?_, rs, rt, rfl, operands_of_div_stuck (s := s.advancePc) hstuck⟩
      rw [step_of_fetch hrun hinv hfetch, State.executeAt, hexec]
  · exact absurd ((if_pos hrun).trans (if_neg hinv)) (h (s.raise .invariantViolated))

/-- The parameters stay along a run. -/
theorem reaches_cfg {s t : State} (h : Reaches s t) : t.cfg = s.cfg := by
  induction h with
  | refl => rfl
  | tail t u _ hstep ih =>
    obtain ⟨-, -, hcfg⟩ := step_frame hstep
    exact hcfg.trans ih

/-- Settles O57: a stuck machine's parameters say `fault`, and along a run they stay what they were. -/
theorem runningMachineIsNeverStuck : Obligations.RunningMachineIsNeverStuck := by
  refine ⟨fun s hcfg t hreach => ?_, fun s hrun hstuck => ?_⟩
  · by_contra hend
    obtain ⟨hrun, hstuck⟩ := not_or.mp hend
    obtain ⟨hfault, -⟩ := step_of_stuck (not_not.mp hrun) fun u hu => hstuck ⟨u, hu⟩
    rw [reaches_cfg hreach] at hfault
    exact hcfg hfault
  · obtain ⟨-, hfault⟩ := step_of_stuck hrun hstuck
    exact hfault

end Sys2Proof.Machine
end

section
/-! R207, R231 to R235: the loader. An accepted file's sections have the lengths its header gives and lie where R233 puts them, the text
below the data. -/

namespace Sys2Proof.Machine

open Sys2Proof.Claims

/-- A number that is not negative is the same signed and unsigned. -/
theorem toNat_of_toInt_nonneg {x : Word} (h : 0 ≤ x.toInt) : (x.toNat : Int) = x.toInt := by
  rw [BitVec.toInt_eq_toNat_cond] at h ⊢
  have := x.isLt
  split_ifs at h ⊢ <;> omega

/-! ### Rejected files (R207, R234) -/

theorem load_of_not_acceptable {cfg : Config} {stdin file : List Byte} (h : ¬ BofAcceptable file) :
    load cfg stdin (some file) = loadFailure cfg stdin :=
  if_neg h

/-- Settles O59: each cause contradicts its clause of `BofAcceptable`. -/
theorem loaderRejectsBadFiles : Obligations.LoaderRejectsBadFiles := by
  refine ⟨fun cfg stdin => ⟨rfl, rfl⟩, ?_⟩
  rintro cfg stdin file _ rfl hcause
  have hbad : ¬ BofAcceptable file := by
    rintro ⟨hmagic, -, ⟨hdata, hstack, horder, htext, hentry, hlen, hlen0, hdlen0, hfit, hin⟩, hsize⟩
    simp only [bytesPerWord, memorySize, headerSize] at *
    rcases hcause with h | h
    · exact h hmagic
    · omega
  rw [load_of_not_acceptable hbad]
  exact ⟨rfl, rfl, rfl, rfl⟩

/-! ### The sections of an accepted file (R231) -/

section
variable {file : List Byte}

/-- What acceptance says in natural numbers: the sections lie in the file, and in memory one after the other. -/
theorem sections_of_acceptable (h : BofAcceptable file) :
    (fileHeader file).textLength.toNat ≤ (fileHeader file).dataStart.toNat ∧
    (fileHeader file).dataStart.toNat + (fileHeader file).dataLength.toNat ≤ memorySize ∧
    (textSection file).length = (fileHeader file).textLength.toNat ∧
    (dataSection file).length = (fileHeader file).dataLength.toNat := by
  obtain ⟨-, -, ⟨-, -, -, -, -, -, hlen0, hdlen0, hfit, hin⟩, hsize⟩ := h
  have htext := toNat_of_toInt_nonneg hlen0
  have hdlen := toNat_of_toInt_nonneg hdlen0
  have hdata := toNat_of_toInt_nonneg (hlen0.trans hfit)
  refine ⟨by omega, by omega, ?_, ?_⟩
  · rw [textSection, List.length_take, List.length_drop]; omega
  · rw [dataSection, List.length_take, List.length_drop]; omega

/-- A byte of a run cut out of a file. -/
theorem getD_take_drop (file : List Byte) (start : Nat) {n k : Nat} (hk : k < n) :
    ((file.drop start).take n).getD k 0#8 = file.getD (start + k) 0#8 := by
  simp [List.getD_eq_getElem?_getD, hk, List.getElem?_drop]

/-- What every byte of memory holds after a load (R233). -/
theorem readByte_loadedMemory (h : BofAcceptable file) (a : Nat) :
    readByte (loadedMemory file) a =
      if (fileHeader file).dataStart.toNat ≤ a ∧ a < (fileHeader file).dataStart.toNat + (fileHeader file).dataLength.toNat then
        (dataSection file).getD (a - (fileHeader file).dataStart.toNat) 0#8
      else if a < (fileHeader file).textLength.toNat then (textSection file).getD a 0#8
      else 0#8 := by
  obtain ⟨-, -, htext, hdata⟩ := sections_of_acceptable h
  rw [loadedMemory, readByte_writeBytes, readByte_writeBytes, htext, hdata]
  simp [readByte]

theorem loadedMemory_text (h : BofAcceptable file) {k : Nat} (hk : k < (fileHeader file).textLength.toNat) :
    readByte (loadedMemory file) k = file.getD (24 + k) 0#8 := by
  obtain ⟨hbelow, -⟩ := sections_of_acceptable h
  rw [readByte_loadedMemory h, if_neg (by omega), if_pos hk]
  exact getD_take_drop file 24 hk

theorem loadedMemory_data (h : BofAcceptable file) {k : Nat} (hk : k < (fileHeader file).dataLength.toNat) :
    readByte (loadedMemory file) ((fileHeader file).dataStart.toNat + k) =
      file.getD (24 + (fileHeader file).textLength.toNat + k) 0#8 := by
  rw [readByte_loadedMemory h, if_pos (by omega), Nat.add_sub_cancel_left]
  exact getD_take_drop file _ hk

theorem loadedMemory_elsewhere (h : BofAcceptable file) {a : Nat} (htext : (fileHeader file).textLength.toNat ≤ a)
    (hdata : a < (fileHeader file).dataStart.toNat ∨ (fileHeader file).dataStart.toNat + (fileHeader file).dataLength.toNat ≤ a) :
    readByte (loadedMemory file) a = 0#8 := by
  rw [readByte_loadedMemory h, if_neg (by omega), if_neg (by omega)]

theorem loadedMemory_wf (h : BofAcceptable file) : (loadedMemory file).wf = true := by
  obtain ⟨hbelow, hin, htext, hdata⟩ := sections_of_acceptable h
  exact writeBytes_wf (writeBytes_wf rfl (by omega)) (by omega)

end

/-! ### The state at launch (R235) -/

section
variable (cfg : Config) (h : Header) (mem : Memory) (stdin : List Byte)

theorem launchState_gp : (launchState cfg h mem stdin).getReg regGp = h.dataStart := rfl

theorem launchState_getReg_other {r : Reg} (hgp : r ≠ 28) (hsp : r ≠ 29) (hfp : r ≠ 30) :
    (launchState cfg h mem stdin).getReg r = 0#32 := by
  have hgp : 28 ≠ r.val := fun e => hgp (Fin.ext e.symm)
  have hsp : 29 ≠ r.val := fun e => hsp (Fin.ext e.symm)
  have hfp : 30 ≠ r.val := fun e => hfp (Fin.ext e.symm)
  simp [launchState, State.getReg, initialRegs, Vector.getElem_set_ne, hgp, hsp, hfp]

/-- The initial state of an acceptable header meets the invariants when its stack bottom and its entry point are in range (R36, R235). -/
theorem launchState_invariants (hok : h.Acceptable) (hstack : h.stackBottom.toInt < cfg.maxStackHeight)
    (hentry : 0 ≤ h.textStart.toInt) : (launchState cfg h mem stdin).Invariants := by
  obtain ⟨hdata4, hstack4, horder, htext4, hbelow, -, -, hdlen0, -, hin⟩ := hok
  have hpc : (h.textStart.toNat : Int) = h.textStart.toInt := toNat_of_toInt_nonneg hentry
  have hpcin : h.textStart.toNat < memorySize := by omega
  exact ⟨htext4, hdata4, hstack4, hstack4, by rw [launchState_gp]; omega, horder, le_rfl, hstack, Nat.zero_le _, hpcin, rfl⟩

end

/-! ### The loaded state -/

/-- Showing the initial state is seen in the trace alone. -/
theorem State.showInitial_eq (s : State) : ∃ l, s.showInitial = s.withTrace s.tracing l := by
  unfold showInitial
  split_ifs
  · exact ⟨_, rfl⟩
  · exact ⟨s.trace, rfl⟩

/-- An accepted file's program is the launch state, checked and shown. -/
theorem load_of_acceptable {file : List Byte} (cfg : Config) (stdin : List Byte) (h : BofAcceptable file) :
    ∃ l, load cfg stdin (some file) =
      (launchState cfg (fileHeader file) (loadedMemory file) stdin).checkInvariants.withTrace true l := by
  obtain ⟨l, hl⟩ := (launchState cfg (fileHeader file) (loadedMemory file) stdin).checkInvariants.showInitial_eq
  rw [State.checkInvariants_tracing] at hl
  exact ⟨l, (if_pos h).trans hl⟩

/-- Settles O58: the invariants hold, so the check leaves the launch state as it is. -/
theorem loadLeavesTheInitialState : Obligations.LoadLeavesTheInitialState := by
  rintro cfg stdin file _ _ hfile rfl rfl hstack hentry
  obtain ⟨-, -, hheader, -⟩ := id hfile
  have hinv := launchState_invariants cfg _ (loadedMemory file) stdin hheader hstack hentry
  obtain ⟨l, hload⟩ := load_of_acceptable cfg stdin hfile
  rw [hload, State.checkInvariants, if_neg fun ⟨_, hbroken⟩ => hbroken hinv]
  exact ⟨rfl, rfl, rfl, rfl, rfl, fun _ => launchState_getReg_other cfg _ (loadedMemory file) stdin, rfl, rfl,
    fun k => loadedMemory_text hfile, fun k => loadedMemory_data hfile, fun a => loadedMemory_elsewhere hfile,
    rfl, rfl, rfl, rfl, rfl, rfl⟩

/-- The check makes a state sound that is so but for the invariants. -/
theorem State.checkInvariants_sound {s : State} (hwf : s.mem.wf = true) (hzero : s.regs[0] = 0#32) (hlegal : s.cfg.Legal) :
    s.checkInvariants.Sound := by
  refine ⟨by rwa [checkInvariants_mem], by simpa using hzero, by rwa [checkInvariants_cfg], fun hrun => ?_⟩
  simpa [State.Invariants] using invariants_of_checkInvariants hrun

/-- Settles O60: a rejected file leaves a halted machine over empty memory, an accepted one the checked launch state. -/
theorem everyLoadIsSound : Obligations.EveryLoadIsSound := by
  intro cfg stdin file hlegal
  have hfailure : (loadFailure cfg stdin).Sound := ⟨rfl, rfl, hlegal, fun hrun => nomatch hrun⟩
  cases file with
  | none => exact hfailure
  | some f =>
    by_cases hf : BofAcceptable f
    · obtain ⟨l, hload⟩ := load_of_acceptable cfg stdin hf
      rw [hload]
      exact State.checkInvariants_sound (loadedMemory_wf hf) rfl hlegal
    · rw [load_of_not_acceptable hf]
      exact hfailure

end Sys2Proof.Machine
end
